-- ==== Sys2Proof/Word.lean ====
section
/-! DEFINITION. The words of the core: a byte (one memory cell, one general register), the 16-bit word of an
instruction, of `I` and of `pc`, and the two narrower immediates of an instruction (00_scope.md R6, R8). -/

namespace Sys2Proof

/-- An 8-bit value: a memory byte, a general register, a timer (R6 `REG_W`, `TIMER_W`). -/
abbrev Byte := BitVec 8

/-- A 16-bit value: an instruction word, `I`, `pc`, a stack entry (R6 `I_W`, `PC_W`). -/
abbrev Word := BitVec 16

/-- A 4-bit field of an instruction word (R53). -/
abbrev Nibble := BitVec 4

/-- The 12-bit address immediate `NNN` (R53). -/
abbrev Imm12 := BitVec 12

end Sys2Proof
end

