-- ==== Sys2Proof/Syntax.lean ====
section
/-! DEFINITION. The instructions: one constructor for each of the 35 rows of the opcode map (30_encoding.md R59), in
its order, with the fields of R53 that the row has as operands. -/

namespace Sys2Proof

/-- A general register's number, 0 to 15 (10_state.md R13); 15 is `VF`. -/
abbrev Reg := Fin 16

/-- `VF`, the flag register (R15). -/
abbrev VF : Reg := 15

/-- The 35 instructions (R59). The `y` of `shr` and `shl` is the field the instruction ignores (R55): it is kept so
that no bit of a word is lost in decoding. -/
inductive Instr where
  | sys (nnn : Imm12)
  | cls
  | ret
  | jp (nnn : Imm12)
  | call (nnn : Imm12)
  | seImm (x : Reg) (nn : Byte)
  | sneImm (x : Reg) (nn : Byte)
  | seReg (x y : Reg)
  | sneReg (x y : Reg)
  | ldImm (x : Reg) (nn : Byte)
  | addImm (x : Reg) (nn : Byte)
  | ldReg (x y : Reg)
  | orReg (x y : Reg)
  | andReg (x y : Reg)
  | xorReg (x y : Reg)
  | addReg (x y : Reg)
  | subReg (x y : Reg)
  | shr (x y : Reg)
  | subnReg (x y : Reg)
  | shl (x y : Reg)
  | ldI (nnn : Imm12)
  | jpV0 (nnn : Imm12)
  | rnd (x : Reg) (nn : Byte)
  | drw (x y : Reg) (n : Nibble)
  | skp (x : Reg)
  | sknp (x : Reg)
  | ldKey (x : Reg)
  | ldFromDT (x : Reg)
  | ldDT (x : Reg)
  | ldST (x : Reg)
  | addI (x : Reg)
  | ldF (x : Reg)
  | ldB (x : Reg)
  | storeRegs (x : Reg)
  | loadRegs (x : Reg)
  deriving DecidableEq, Repr

end Sys2Proof
end

