-- ==== Sys2Proof/WellFormed.lean ====
section
/-! DEFINITION. Which instruction terms stand for an instruction of the hardware. The operand types already bound
every field; the one check left is that of row 1 of the opcode map: SYS nnn is not one of the two words that are CLS
and RET (30_encoding.md R57, R59). -/

namespace Sys2Proof

/-- The `nnn` of the word 0x00E0, which is CLS. -/
def clsImm : Imm12 := 0x0E0#12

/-- The `nnn` of the word 0x00EE, which is RET. -/
def retImm : Imm12 := 0x0EE#12

/-- The check, instruction by instruction. -/
def Instr.wellFormed : Instr → Bool
  | .sys nnn => decide (nnn ≠ clsImm) && decide (nnn ≠ retImm)
  | .cls => true
  | .ret => true
  | .jp _ => true
  | .call _ => true
  | .seImm _ _ => true
  | .sneImm _ _ => true
  | .seReg _ _ => true
  | .sneReg _ _ => true
  | .ldImm _ _ => true
  | .addImm _ _ => true
  | .ldReg _ _ => true
  | .orReg _ _ => true
  | .andReg _ _ => true
  | .xorReg _ _ => true
  | .addReg _ _ => true
  | .subReg _ _ => true
  | .shr _ _ => true
  | .subnReg _ _ => true
  | .shl _ _ => true
  | .ldI _ => true
  | .jpV0 _ => true
  | .rnd _ _ => true
  | .drw _ _ _ => true
  | .skp _ => true
  | .sknp _ => true
  | .ldKey _ => true
  | .ldFromDT _ => true
  | .ldDT _ => true
  | .ldST _ => true
  | .addI _ => true
  | .ldF _ => true
  | .ldB _ => true
  | .storeRegs _ => true
  | .loadRegs _ => true

/-- An instruction of the hardware. -/
abbrev Instr.WellFormed (i : Instr) : Prop := i.wellFormed = true

end Sys2Proof
end

