-- ==== Sys2Proof/Decode.lean ====
section
/-! DEFINITION. Decoding and encoding (30_encoding.md R52 to R62), and the opcode map of R59 as data. -/

namespace Sys2Proof

/-! ## The fields of a word (R53) -/

/-- The family selector `op[15:12]`. -/
def fieldTop (op : Word) : Nibble := op.extractLsb' 12 4
/-- `X = op[11:8]` as a register number. -/
def fieldX (op : Word) : Reg := (op.extractLsb' 8 4).toFin
/-- `Y = op[7:4]` as a register number. -/
def fieldY (op : Word) : Reg := (op.extractLsb' 4 4).toFin
/-- `N = op[3:0]`. -/
def fieldN (op : Word) : Nibble := op.extractLsb' 0 4
/-- `NN = op[7:0]`. -/
def fieldNN (op : Word) : Byte := op.extractLsb' 0 8
/-- `NNN = op[11:0]`. -/
def fieldNNN (op : Word) : Imm12 := op.extractLsb' 0 12

/-! ## Decoding -/

/-- Family 0: the two exact words before the SYS space (R57, R58). -/
def decodeFamily0 (op : Word) : Instr :=
  if op = 0x00E0#16 then .cls else if op = 0x00EE#16 then .ret else .sys (fieldNNN op)

/-- Family 8: `N` selects; any other `N` is unrecognized (R57). -/
def decodeFamily8 (op : Word) : Option Instr :=
  match (fieldN op).toNat with
  | 0x0 => some (.ldReg (fieldX op) (fieldY op))
  | 0x1 => some (.orReg (fieldX op) (fieldY op))
  | 0x2 => some (.andReg (fieldX op) (fieldY op))
  | 0x3 => some (.xorReg (fieldX op) (fieldY op))
  | 0x4 => some (.addReg (fieldX op) (fieldY op))
  | 0x5 => some (.subReg (fieldX op) (fieldY op))
  | 0x6 => some (.shr (fieldX op) (fieldY op))
  | 0x7 => some (.subnReg (fieldX op) (fieldY op))
  | 0xE => some (.shl (fieldX op) (fieldY op))
  | _ => none

/-- Family E: `NN` selects; any other `NN` is unrecognized (R57). -/
def decodeFamilyE (op : Word) : Option Instr :=
  if fieldNN op = 0x9E#8 then some (.skp (fieldX op))
  else if fieldNN op = 0xA1#8 then some (.sknp (fieldX op))
  else none

/-- Family F: `NN` selects; any other `NN` is unrecognized (R57). FX33, FX55 and FX65 decode under both values of
`P_MEMOPS`; under `absent` their meanings are no-ops (R119). -/
def decodeFamilyF (op : Word) : Option Instr :=
  if fieldNN op = 0x07#8 then some (.ldFromDT (fieldX op))
  else if fieldNN op = 0x0A#8 then some (.ldKey (fieldX op))
  else if fieldNN op = 0x15#8 then some (.ldDT (fieldX op))
  else if fieldNN op = 0x18#8 then some (.ldST (fieldX op))
  else if fieldNN op = 0x1E#8 then some (.addI (fieldX op))
  else if fieldNN op = 0x29#8 then some (.ldF (fieldX op))
  else if fieldNN op = 0x33#8 then some (.ldB (fieldX op))
  else if fieldNN op = 0x55#8 then some (.storeRegs (fieldX op))
  else if fieldNN op = 0x65#8 then some (.loadRegs (fieldX op))
  else none

/-- The decoder on one word: the top nibble, then the family's selector (R56 to R58). `none` is an unrecognized word
(R60). A nibble is at most 15, so the last line of the match is never reached. -/
def decodeWord (op : Word) : Option Instr :=
  match (fieldTop op).toNat with
  | 0x0 => some (decodeFamily0 op)
  | 0x1 => some (.jp (fieldNNN op))
  | 0x2 => some (.call (fieldNNN op))
  | 0x3 => some (.seImm (fieldX op) (fieldNN op))
  | 0x4 => some (.sneImm (fieldX op) (fieldNN op))
  | 0x5 => if fieldN op = 0#4 then some (.seReg (fieldX op) (fieldY op)) else none
  | 0x6 => some (.ldImm (fieldX op) (fieldNN op))
  | 0x7 => some (.addImm (fieldX op) (fieldNN op))
  | 0x8 => decodeFamily8 op
  | 0x9 => if fieldN op = 0#4 then some (.sneReg (fieldX op) (fieldY op)) else none
  | 0xA => some (.ldI (fieldNNN op))
  | 0xB => some (.jpV0 (fieldNNN op))
  | 0xC => some (.rnd (fieldX op) (fieldNN op))
  | 0xD => some (.drw (fieldX op) (fieldY op) (fieldN op))
  | 0xE => decodeFamilyE op
  | 0xF => decodeFamilyF op
  | _ => none

/-- The word two bytes make, high byte first: `hi :: lo` (R8, R52). -/
def wordOfBytes (hi lo : Byte) : Word := hi ++ lo

/-- The two bytes of a word, as they lie in memory: high byte at the lower address (R43, R52). -/
def bytesOfWord (op : Word) : List Byte := [op.extractLsb' 8 8, op.extractLsb' 0 8]

/-- Why bytes are not an instruction. -/
inductive Reject where
  /-- Fewer than two bytes: there is no whole word to decode (R52). -/
  | truncated
  /-- The word matches no row of the opcode map (R60); the core executes it as a no-op (R73). -/
  | unrecognized (op : Word)
  deriving DecidableEq, Repr

/-- Decoding a stream of bytes: one instruction and the bytes after it, or the reason there is none. -/
def decode : List Byte → Except Reject (Instr × List Byte)
  | hi :: lo :: rest =>
    match decodeWord (wordOfBytes hi lo) with
    | some i => .ok (i, rest)
    | none => .error (.unrecognized (wordOfBytes hi lo))
  | _ => .error .truncated

/-- The word that the host's number stands for: bit 0 is the word's least significant bit, and the bits at and above
`nbits` are 0. -/
def tableWord (nbits w : Nat) : Word := BitVec.ofNat 16 (w % 2 ^ nbits)

/-- The host's question: the instruction this decoder reads from the bytes of that word. -/
def decodeTableWord (nbits w : Nat) : Option Instr :=
  match decode (bytesOfWord (tableWord nbits w)) with
  | .ok (i, _) => some i
  | .error _ => none

/-! ## Encoding (R53, R59) -/

/-- A register number as its 4-bit field. -/
def regBits (x : Reg) : Nibble := BitVec.ofFin x

/-- A word of the form `f NNN`. -/
def wordNNN (f : Nibble) (nnn : Imm12) : Word := f ++ nnn

/-- A word of the form `f X NN`. -/
def wordXNN (f : Nibble) (x : Reg) (nn : Byte) : Word := f ++ regBits x ++ nn

/-- A word of the form `f X Y N`. -/
def wordXYN (f : Nibble) (x y : Reg) (n : Nibble) : Word := f ++ regBits x ++ regBits y ++ n

/-- The word of an instruction (R59). -/
def encode : Instr → Word
  | .sys nnn => wordNNN 0x0#4 nnn
  | .cls => 0x00E0#16
  | .ret => 0x00EE#16
  | .jp nnn => wordNNN 0x1#4 nnn
  | .call nnn => wordNNN 0x2#4 nnn
  | .seImm x nn => wordXNN 0x3#4 x nn
  | .sneImm x nn => wordXNN 0x4#4 x nn
  | .seReg x y => wordXYN 0x5#4 x y 0x0#4
  | .sneReg x y => wordXYN 0x9#4 x y 0x0#4
  | .ldImm x nn => wordXNN 0x6#4 x nn
  | .addImm x nn => wordXNN 0x7#4 x nn
  | .ldReg x y => wordXYN 0x8#4 x y 0x0#4
  | .orReg x y => wordXYN 0x8#4 x y 0x1#4
  | .andReg x y => wordXYN 0x8#4 x y 0x2#4
  | .xorReg x y => wordXYN 0x8#4 x y 0x3#4
  | .addReg x y => wordXYN 0x8#4 x y 0x4#4
  | .subReg x y => wordXYN 0x8#4 x y 0x5#4
  | .shr x y => wordXYN 0x8#4 x y 0x6#4
  | .subnReg x y => wordXYN 0x8#4 x y 0x7#4
  | .shl x y => wordXYN 0x8#4 x y 0xE#4
  | .ldI nnn => wordNNN 0xA#4 nnn
  | .jpV0 nnn => wordNNN 0xB#4 nnn
  | .rnd x nn => wordXNN 0xC#4 x nn
  | .drw x y n => wordXYN 0xD#4 x y n
  | .skp x => wordXNN 0xE#4 x 0x9E#8
  | .sknp x => wordXNN 0xE#4 x 0xA1#8
  | .ldKey x => wordXNN 0xF#4 x 0x0A#8
  | .ldFromDT x => wordXNN 0xF#4 x 0x07#8
  | .ldDT x => wordXNN 0xF#4 x 0x15#8
  | .ldST x => wordXNN 0xF#4 x 0x18#8
  | .addI x => wordXNN 0xF#4 x 0x1E#8
  | .ldF x => wordXNN 0xF#4 x 0x29#8
  | .ldB x => wordXNN 0xF#4 x 0x33#8
  | .storeRegs x => wordXNN 0xF#4 x 0x55#8
  | .loadRegs x => wordXNN 0xF#4 x 0x65#8

/-- The bytes of an instruction, as a ROM holds them (R52). -/
def encodeBytes (i : Instr) : List Byte := bytesOfWord (encode i)

/-! ## The opcode map as data (R59) -/

/-- One row of the opcode map: a word `op` is the instruction when `op & mask = pat` and `op` is not excluded. -/
structure OpcodeRow where
  number : Nat
  pat : Word
  mask : Word
  exclude : List Word
  deriving DecidableEq, Repr

/-- Does a word match a row (R59). -/
def OpcodeRow.accepts (r : OpcodeRow) (op : Word) : Bool :=
  decide (op &&& r.mask = r.pat) && !(r.exclude.contains op)

/-- Rows 1 to 11: flow, skips and the two immediate instructions. -/
def opcodeRowsLow : List OpcodeRow :=
  [⟨1, 0x0000, 0xF000, [0x00E0, 0x00EE]⟩, ⟨2, 0x00E0, 0xFFFF, []⟩, ⟨3, 0x00EE, 0xFFFF, []⟩,
   ⟨4, 0x1000, 0xF000, []⟩, ⟨5, 0x2000, 0xF000, []⟩, ⟨6, 0x3000, 0xF000, []⟩, ⟨7, 0x4000, 0xF000, []⟩,
   ⟨8, 0x5000, 0xF00F, []⟩, ⟨9, 0x9000, 0xF00F, []⟩, ⟨10, 0x6000, 0xF000, []⟩, ⟨11, 0x7000, 0xF000, []⟩]

/-- Rows 12 to 24: family 8, and families A to D. -/
def opcodeRowsMid : List OpcodeRow :=
  [⟨12, 0x8000, 0xF00F, []⟩, ⟨13, 0x8001, 0xF00F, []⟩, ⟨14, 0x8002, 0xF00F, []⟩, ⟨15, 0x8003, 0xF00F, []⟩,
   ⟨16, 0x8004, 0xF00F, []⟩, ⟨17, 0x8005, 0xF00F, []⟩, ⟨18, 0x8006, 0xF00F, []⟩, ⟨19, 0x8007, 0xF00F, []⟩,
   ⟨20, 0x800E, 0xF00F, []⟩, ⟨21, 0xA000, 0xF000, []⟩, ⟨22, 0xB000, 0xF000, []⟩, ⟨23, 0xC000, 0xF000, []⟩,
   ⟨24, 0xD000, 0xF000, []⟩]

/-- Rows 25 to 35: families E and F. -/
def opcodeRowsHigh : List OpcodeRow :=
  [⟨25, 0xE09E, 0xF0FF, []⟩, ⟨26, 0xE0A1, 0xF0FF, []⟩, ⟨27, 0xF00A, 0xF0FF, []⟩, ⟨28, 0xF007, 0xF0FF, []⟩,
   ⟨29, 0xF015, 0xF0FF, []⟩, ⟨30, 0xF018, 0xF0FF, []⟩, ⟨31, 0xF01E, 0xF0FF, []⟩, ⟨32, 0xF029, 0xF0FF, []⟩,
   ⟨33, 0xF033, 0xF0FF, []⟩, ⟨34, 0xF055, 0xF0FF, []⟩, ⟨35, 0xF065, 0xF0FF, []⟩]

/-- The 35 rows of R59. -/
def opcodeMap : List OpcodeRow := opcodeRowsLow ++ opcodeRowsMid ++ opcodeRowsHigh

/-- The row number of R59 an instruction belongs to. -/
def Instr.rowNumber : Instr → Nat
  | .sys _ => 1
  | .cls => 2
  | .ret => 3
  | .jp _ => 4
  | .call _ => 5
  | .seImm _ _ => 6
  | .sneImm _ _ => 7
  | .seReg _ _ => 8
  | .sneReg _ _ => 9
  | .ldImm _ _ => 10
  | .addImm _ _ => 11
  | .ldReg _ _ => 12
  | .orReg _ _ => 13
  | .andReg _ _ => 14
  | .xorReg _ _ => 15
  | .addReg _ _ => 16
  | .subReg _ _ => 17
  | .shr _ _ => 18
  | .subnReg _ _ => 19
  | .shl _ _ => 20
  | .ldI _ => 21
  | .jpV0 _ => 22
  | .rnd _ _ => 23
  | .drw _ _ _ => 24
  | .skp _ => 25
  | .sknp _ => 26
  | .ldKey _ => 27
  | .ldFromDT _ => 28
  | .ldDT _ => 29
  | .ldST _ => 30
  | .addI _ => 31
  | .ldF _ => 32
  | .ldB _ => 33
  | .storeRegs _ => 34
  | .loadRegs _ => 35

end Sys2Proof
end

