-- ==== Sys2Proof/Config.lean ====
section
/-! DEFINITION. The configuration of 00_scope.md R7: the decided parameters as fields of `Config` (this hardware's
values are `Sys2Proof.Machine.hw`, in Machine/Hardware.lean), and the two draws of the environment, which are OPEN,
as constants with no body. -/

namespace Sys2Proof

/-- `P_MEMOPS` (R7, R119): do FX33, FX55 and FX65 execute, or are they unrecognized no-ops. -/
inductive MemOps where
  | standard
  | absent
  deriving DecidableEq, Repr

/-- `P_LS_I` (R7): do FX55 and FX65 leave `I`, or set it to `I + X + 1`. -/
inductive IndexAfter where
  | unchanged
  | increment
  deriving DecidableEq, Repr

/-- `P_ADDR_OOB` (R7, R39): does a byte address of 0x1000 or more raise MEMORY_BOUNDS, or wrap modulo 4096. -/
inductive AddrOob where
  | fault
  | wrap12
  deriving DecidableEq, Repr

/-- `P_ODD_PC` (R7, R69): does a fetch at an odd `pc` proceed, or raise MEMORY_BOUNDS. -/
inductive OddPc where
  | fetch
  | fault
  deriving DecidableEq, Repr

/-- `P_FLAG_ORDER` (R7, R90): the order of the `VF` write and the result write in 8XY4 to 8XYE. -/
inductive FlagOrder where
  | textOrder
  | flagLast
  deriving DecidableEq, Repr

/-- The decided parameters of R7, with `P_FONT` (the 80 font bytes, R32) as a list of bytes. -/
structure Config where
  memOps    : MemOps
  lsI       : IndexAfter
  addrOob   : AddrOob
  oddPc     : OddPc
  flagOrder : FlagOrder
  font      : List Byte
  deriving DecidableEq, Repr

/-- FREE VALUE (R7 `RNG`, R104): the byte the environment gives to the n-th draw. DESIGN CHOICE of form, log entry
2: no body, so nothing can be proved about any byte it gives. -/
opaque Config.randomByte : Nat → Byte

/-- FREE VALUE (R7 `P_KEY_OOB`, R110, R111): the Boolean the environment gives to the n-th draw. DESIGN CHOICE of
form, log entry 2: no body, so nothing can be proved about any answer it gives. -/
opaque Config.keyDraw : Nat → Bool

end Sys2Proof
end

