-- ==== Sys2Proof/Machine/Hardware.lean ====
section
/-! DEFINITION. The configuration of this hardware (00_scope.md R7, 10_state.md R32). -/

namespace Sys2Proof.Machine

/-- The glyphs 0 to 7 (R32). -/
def fontLow : List (List Byte) :=
  [[0xF0, 0x90, 0x90, 0x90, 0xF0], [0x20, 0x60, 0x20, 0x20, 0x70], [0xF0, 0x10, 0xF0, 0x80, 0xF0],
   [0xF0, 0x10, 0xF0, 0x10, 0xF0], [0x90, 0x90, 0xF0, 0x10, 0x10], [0xF0, 0x80, 0xF0, 0x10, 0xF0],
   [0xF0, 0x80, 0xF0, 0x90, 0xF0], [0xF0, 0x10, 0x20, 0x40, 0x40]]

/-- The glyphs 8 to F (R32). -/
def fontHigh : List (List Byte) :=
  [[0xF0, 0x90, 0xF0, 0x90, 0xF0], [0xF0, 0x90, 0xF0, 0x10, 0xF0], [0xF0, 0x90, 0xF0, 0x90, 0x90],
   [0xE0, 0x90, 0xE0, 0x90, 0xE0], [0xF0, 0x80, 0x80, 0x80, 0xF0], [0xE0, 0x90, 0x90, 0x90, 0xE0],
   [0xF0, 0x80, 0xF0, 0x80, 0xF0], [0xF0, 0x80, 0xF0, 0x80, 0x80]]

/-- This hardware's values of the parameters of R7 (decisions D1 to D8 of the spec; log entry 3). -/
def hw : Config where
  memOps    := .standard
  lsI       := .unchanged
  addrOob   := .fault
  oddPc     := .fetch
  flagOrder := .textOrder
  font      := (fontLow ++ fontHigh).flatten

end Sys2Proof.Machine
end

