-- ==== Sys2Proof/Machine/State.lean ====
section
/-! DEFINITION. The state of the core: `CoreRecord` is the record of 10_state.md R34, field for field and no other, and
`State` is that record beside the place in the environment's sequence of draws (log entry 2). Its value at reset is R31's,
with an empty ROM (log entry 5). -/

namespace Sys2Proof.Machine

/-- The fault status `halt` (R27): NONE, or the fatal kind that stopped the core. -/
inductive HaltCode where
  | none
  | stackOverflow
  | stackUnderflow
  | memoryBounds
  | romTooLarge
  deriving DecidableEq, Repr

/-- The run-state controller's state (R25): Running is `paused = 0`, Paused is `paused = 1`. -/
inductive RunState where
  | running
  | paused
  deriving DecidableEq, Repr

/-- The 4096-byte memory as the bytes that differ from its contents at reset, by address (log entry 4; the
operations and the canonical form are in Machine/Memory.lean). -/
abbrev Memory := List Host.Cell

/-- The core's state, exactly the record of R34: these fields and no others. -/
@[ext]
structure CoreRecord where
  /-- The 16 general registers (R13). -/
  V           : Vector Byte 16
  /-- The index register (R17). -/
  I           : Word
  /-- The program counter (R18). -/
  pc          : Word
  /-- The 12 entries of the call stack (R19). -/
  stack       : Vector Word 12
  /-- The number of entries in use, 0 to 12 (R20). -/
  sp          : Fin 13
  /-- The display, bit `y * 64 + x` for the cell in column `x` and row `y`, 1 = on (R21). -/
  disp        : BitVec 2048
  /-- The keypad, bit `k` for key `k`, 1 = pressed (R22). -/
  key         : BitVec 16
  /-- The delay timer (R23). -/
  DT          : Byte
  /-- The sound timer (R24). -/
  ST          : Byte
  /-- The memory (R28). -/
  mem         : Memory
  /-- Running or Paused (R25). -/
  runState    : RunState
  /-- The key-wait status `awaiting_key` (R26). -/
  awaitingKey : Bool
  /-- The fault status (R27). -/
  halt        : HaltCode
  /-- The address of the instruction that faulted (R27). -/
  faultPc     : Word
  /-- The word of the instruction that faulted, 0 for a fault of the fetch (R27, R74). -/
  faultOp     : Word
  deriving DecidableEq, Repr

/-- What a step runs on: the core's record, and the environment's draws as R29 has them, an input. They come in as the
place reached in the environment's sequence, since `exec` and `step` take a state and nothing else. -/
@[ext]
structure State extends CoreRecord where
  /-- THE MODEL'S OWN FIELD, no part of the core's record: how many draws of the environment have been taken (log entry
  2). -/
  draws       : Nat
  deriving DecidableEq, Repr

/-- The reasons a step could stop the MODEL. There is none: every fault of this core is a fatal fault whose effect
the spec gives (R74), so it is taken as a next state with `halt` set (log entry 1). Nothing raises a `Fault`, and that
is safe: no run is cut off. -/
inductive Fault where
  deriving DecidableEq, Repr

/-- The reasons an instruction could have no meaning in the model. -/
inductive Refusal where
  /-- Raised by an arm of `exec` for an instruction that has no meaning yet (safe: nothing can be proved of what it
  does). No arm raises it now. -/
  | notModelled (mnemonic : String)
  deriving DecidableEq, Repr

/-- The machine right after reset with an empty ROM (R31, R141): memory lists nothing, so it holds the font and
zeros. -/
def State.reset : State where
  V           := Vector.replicate 16 0#8
  I           := 0#16
  pc          := 0x200#16
  stack       := Vector.replicate 12 0#16
  sp          := 0
  disp        := 0#2048
  key         := 0#16
  DT          := 0#8
  ST          := 0#8
  mem         := []
  runState    := .running
  awaitingKey := false
  halt        := .none
  faultPc     := 0#16
  faultOp     := 0#16
  draws       := 0

end Sys2Proof.Machine
end

