-- ==== Sys2Proof/Machine/Memory.lean ====
section
/-! DEFINITION. Memory (20_memory.md): the canonical list of (address, byte) pairs, one byte read, one byte
written, and the two primitives `MemRead` and `MemWrite` of R39, through which every access goes. -/

namespace Sys2Proof.Machine

/-- `MEM_SIZE` (R6): addresses are 0x000 to 0xFFF. -/
def memSize : Nat := 4096

/-- `PROG_BASE` (R6): where the program starts. -/
def progBase : Nat := 0x200

/-- `MAX_ROM` (R6). -/
def maxRom : Nat := 3584

/-- What an unlisted address reads as: its contents at reset, the font at 0x000 to 0x04F and 0 elsewhere (R31, R38). -/
def background (a : Nat) : Byte := hw.font.getD a 0#8

/-- The byte listed for an address, if any. -/
def Memory.listed : Memory → Nat → Option Byte
  | [], _ => none
  | (b, v) :: m, a => if a = b then some v else Memory.listed m a

/-- The byte memory holds at an address. -/
def Memory.read (m : Memory) (a : Nat) : Byte := (Memory.listed m a).getD (background a)

/-- List a byte at its place. -/
def Memory.put : Memory → Nat → Byte → Memory
  | [], a, v => [(a, v)]
  | (b, w) :: m, a, v =>
    if a < b then (a, v) :: (b, w) :: m
    else if a = b then (a, v) :: m
    else (b, w) :: Memory.put m a v

/-- Unlist an address. -/
def Memory.drop (m : Memory) (a : Nat) : Memory := m.filter (fun c => decide (c.1 ≠ a))

/-- Write one byte, keeping the canonical form: a byte equal to the background is not listed. -/
def Memory.write (m : Memory) (a : Nat) (v : Byte) : Memory :=
  if v = background a then Memory.drop m a else Memory.put m a v

/-- The canonical form from an address on: addresses strictly rising from `lo`, inside memory, and no entry equal to
the background. -/
def Memory.wfFrom : Nat → Memory → Bool
  | _, [] => true
  | lo, (a, v) :: m => decide (lo ≤ a) && decide (a < memSize) && decide (v ≠ background a) && Memory.wfFrom (a + 1) m

/-- The canonical form of memory. -/
def Memory.wf (m : Memory) : Bool := Memory.wfFrom 0 m

/-- The address an access goes to, or `none` where it raises MEMORY_BOUNDS (R39 to R41). Addresses are naturals and
are never truncated (R40). -/
def resolve (p : AddrOob) (addr : Nat) : Option Nat :=
  if addr < memSize then some addr
  else
    match p with
    | .fault => none
    | .wrap12 => some (addr % memSize)

/-- `MemRead(addr, 1)` (R39). -/
def memRead (p : AddrOob) (m : Memory) (addr : Nat) : Option Byte :=
  (resolve p addr).map (fun a => Memory.read m a)

/-- `MemWrite(addr, 1, v)` (R39). -/
def memWrite (p : AddrOob) (m : Memory) (addr : Nat) (v : Byte) : Option Memory :=
  (resolve p addr).map (fun a => Memory.write m a v)

/-- The cells of a byte string laid from an address on, in canonical form. -/
def cellsFrom : Nat → List Byte → Memory
  | _, [] => []
  | a, v :: vs => if v = background a then cellsFrom (a + 1) vs else (a, v) :: cellsFrom (a + 1) vs

end Sys2Proof.Machine
end

