-- ==== Sys2Proof/Machine/Ops.lean ====
section
/-! DEFINITION. The named operations over registers, the stack, the display and the program counter; fetching an
instruction word; and taking a fatal fault. -/

namespace Sys2Proof.Machine

/-- `cond ? 1 : 0` as a byte (R8): what a flag write stores. -/
def boolByte (b : Bool) : Byte := if b then 1#8 else 0#8

/-! ## One update per piece of state -/

/-- `V[x]`. -/
def State.getV (s : State) (x : Reg) : Byte := s.V.get x

/-- `V[x] <- v`. -/
def State.setV (s : State) (x : Reg) (v : Byte) : State := { s with V := s.V.set x.val v x.isLt }

/-- All 16 general registers at once. -/
def State.setRegs (s : State) (V : Vector Byte 16) : State := { s with V := V }

/-- `I <- v`. -/
def State.setI (s : State) (v : Word) : State := { s with I := v }

/-- `pc <- v`. -/
def State.setPc (s : State) (v : Word) : State := { s with pc := v }

/-- `DT <- v`. -/
def State.setDT (s : State) (v : Byte) : State := { s with DT := v }

/-- `ST <- v`. -/
def State.setST (s : State) (v : Byte) : State := { s with ST := v }

/-- The display buffer replaced whole. -/
def State.setDisp (s : State) (d : BitVec 2048) : State := { s with disp := d }

/-- Memory replaced whole. -/
def State.setMem (s : State) (m : Memory) : State := { s with mem := m }

/-- The keypad replaced whole. -/
def State.setKey (s : State) (k : BitVec 16) : State := { s with key := k }

/-- `awaiting_key <- b`. -/
def State.setAwaiting (s : State) (b : Bool) : State := { s with awaitingKey := b }

/-- `paused <- r`. -/
def State.setRunState (s : State) (r : RunState) : State := { s with runState := r }

/-- One more draw of the environment has been taken (log entry 2). -/
def State.countDraw (s : State) : State := { s with draws := s.draws + 1 }

/-! ## The program counter -/

/-- The advance of every step, and the further 2 of a skip: `pc <- (pc + 2) mod 65536` (R70). -/
def State.advance (s : State) : State := s.setPc (s.pc + 2#16)

/-- `pc <- pc - 2`: back to the instruction's own address (R112). -/
def State.rewind (s : State) : State := s.setPc (s.pc - 2#16)

/-! ## Memory reads of a state -/

/-- The byte memory holds at an address. -/
def State.byteAt (s : State) (a : Nat) : Byte := Memory.read s.mem a

/-- The instruction word at an address, high byte first (R43). -/
def State.wordAt (s : State) (a : Nat) : Word := wordOfBytes (s.byteAt a) (s.byteAt (a + 1))

/-- Fetch (R68, R69): the word at `a`, or `none` where the fetch raises MEMORY_BOUNDS. -/
def fetchWord (p : AddrOob) (q : OddPc) (m : Memory) (a : Nat) : Option Word :=
  if q = .fault ∧ a % 2 = 1 then none
  else
    match memRead p m a with
    | none => none
    | some hi =>
      match memRead p m (a + 1) with
      | none => none
      | some lo => some (wordOfBytes hi lo)

/-- May a `step` or a `tick` have an effect: Running and not halted (R67, R133). -/
def State.enabled (s : State) : Bool := decide (s.runState = .running) && decide (s.halt = .none)

/-- A state in which the next step fetches the given word: its bytes at `pc`, high byte first, or at 0x200 where no
word fits at `pc`, and the core Running and not halted. -/
def State.placeWord (s : State) (op : Word) : State :=
  let a : Word := if s.pc.toNat + 1 < memSize then s.pc else BitVec.ofNat 16 progBase
  { s with
    pc := a, runState := .running, halt := .none,
    mem := Memory.write (Memory.write s.mem a.toNat (op.extractLsb' 8 8)) (a.toNat + 1) (op.extractLsb' 0 8) }

/-! ## Taking a fatal fault -/

/-- TAKING A FATAL FAULT (R74, R124, R128): the state `s` before the step's effects, with `pc` back at the faulting
instruction's address `a`, and the kind, the address and the word recorded. There is no handler, no vector and no
mode to enter. THERE IS NO RETURN FROM A FAULT BY AN INSTRUCTION (R129): only the `reset` event leaves the halted
state (R131), and it is `initialise` of Machine/Events.lean. -/
def State.takeFault (s : State) (kind : HaltCode) (a op : Word) : State :=
  { s with pc := a, halt := kind, faultPc := a, faultOp := op }

/-- `raise Fault(kind)` in the meaning of the instruction `i`: there `pc` is `a + 2` (R70), so the instruction's
address is `pc - 2`, and its word is the one that encodes it (the instructions that fault have no ignored field). -/
def State.raiseFault (s : State) (kind : HaltCode) (i : Instr) : State :=
  s.takeFault kind (s.pc - 2#16) (encode i)

/-! ## The call stack -/

/-- Push a return address, or `none` where the stack is full (R85). -/
def State.push (s : State) (v : Word) : Option State :=
  if h : s.sp.val < 12 then
    some { s with stack := s.stack.set s.sp.val v h, sp := ⟨s.sp.val + 1, by omega⟩ }
  else none

/-- Pop a return address, or `none` where the stack is empty; the entry keeps its value (R83). -/
def State.pop (s : State) : Option (Word × State) :=
  if h : 0 < s.sp.val then
    some (s.stack[s.sp.val - 1]'(by omega), { s with sp := ⟨s.sp.val - 1, by omega⟩ })
  else none

/-! ## The display -/

/-- `DISP_W` (R6). -/
def dispW : Nat := 64

/-- `DISP_H` (R6). -/
def dispH : Nat := 32

/-- The cell's index: `index = y * 64 + x` (R21). -/
def cellIndex (col row : Nat) : Nat := row * dispW + col

/-- Is a cell on (R21). -/
def State.cell (s : State) (col row : Nat) : Bool := s.disp.getLsbD (cellIndex col row)

/-- The display and the collision flag while a sprite is drawn. -/
structure Canvas where
  disp : BitVec 2048
  hit  : Bool
  deriving DecidableEq, Repr

/-- One sprite bit on one cell: XOR, with a sticky collision flag (R108). -/
def Canvas.plot (c : Canvas) (idx : Nat) (bit : Bool) : Canvas :=
  if bit then ⟨c.disp ^^^ BitVec.twoPow 2048 idx, c.hit || c.disp.getLsbD idx⟩ else c

/-- The columns of one sprite row, most significant bit first: `left` columns are still to draw, the next one is
column `8 - left` and its bit is `left - 1`. A column past the right edge ends the row (R105, R107). -/
def Canvas.plotCols (b : Byte) (row x0 : Nat) : Nat → Canvas → Canvas
  | 0, c => c
  | left + 1, c =>
    if dispW ≤ x0 + (7 - left) then c
    else Canvas.plotCols b row x0 left (c.plot (cellIndex (x0 + (7 - left)) row) (b.getLsbD left))

/-- The rows of a sprite from sprite row `k` on, `left` of them: a row past the bottom edge ends the sprite and is not
read (R107, R109); `none` is MEMORY_BOUNDS. -/
def Canvas.plotRows (p : AddrOob) (m : Memory) (base x0 y0 : Nat) : Nat → Nat → Canvas → Option Canvas
  | 0, _, c => some c
  | left + 1, k, c =>
    if dispH ≤ y0 + k then some c
    else
      match memRead p m (base + k) with
      | none => none
      | some b => Canvas.plotRows p m base x0 y0 left (k + 1) (c.plotCols b (y0 + k) x0 8)

/-! ## Runs of registers and memory -/

/-- The 16 registers in order. -/
def allRegs : List Reg := [0, 1, 2, 3, 4, 5, 6, 7, 8, 9, 10, 11, 12, 13, 14, 15]

/-- `V[0]` to `V[x]`, in order (R121, R122). -/
def regsUpTo (x : Reg) : List Reg := allRegs.take (x.val + 1)

/-- Store registers at `base` plus their number, in order; `none` is MEMORY_BOUNDS (R121). -/
def storeRun (p : AddrOob) (V : Vector Byte 16) (base : Nat) : List Reg → Memory → Option Memory
  | [], m => some m
  | r :: rs, m =>
    match memWrite p m (base + r.val) (V.get r) with
    | none => none
    | some m' => storeRun p V base rs m'

/-- Load registers from `base` plus their number, in order; `none` is MEMORY_BOUNDS (R122). -/
def loadRun (p : AddrOob) (m : Memory) (base : Nat) : List Reg → Vector Byte 16 → Option (Vector Byte 16)
  | [], V => some V
  | r :: rs, V =>
    match memRead p m (base + r.val) with
    | none => none
    | some v => loadRun p m base rs (V.set r.val v r.isLt)

/-- Store bytes at rising addresses; `none` is MEMORY_BOUNDS (R120). -/
def storeBytes (p : AddrOob) : Nat → List Byte → Memory → Option Memory
  | _, [], m => some m
  | a, v :: vs, m =>
    match memWrite p m a v with
    | none => none
    | some m' => storeBytes p (a + 1) vs m'

/-- What FX55 and FX65 leave in `I` (R121, R122). -/
def indexAfter (q : IndexAfter) (I : Word) (x : Reg) : Word :=
  match q with
  | .unchanged => I
  | .increment => I + BitVec.ofNat 16 (x.val + 1)

end Sys2Proof.Machine
end

