-- ==== Sys2Proof/Machine/Flags.lean ====
section
/-! DEFINITION. The flag computations of 43_alu.md, and the one operation that writes a flag and a result in the order
`P_FLAG_ORDER` gives (R90). Sums and comparisons are on naturals (R8). -/

namespace Sys2Proof.Machine

/-- Carry: the true sum exceeds 255 (R97). -/
def carryOut (a b : Byte) : Bool := decide (255 < a.toNat + b.toNat)

/-- No borrow: `a ≥ b` (R98, R100). -/
def noBorrow (a b : Byte) : Bool := decide (b.toNat ≤ a.toNat)

/-- The bit a right shift shifts out: bit 0 (R99). -/
def shrOut (a : Byte) : Bool := a.getLsbD 0

/-- The bit a left shift shifts out: bit 7 (R101). -/
def shlOut (a : Byte) : Bool := a.getLsbD 7

/-- `a + b mod 256` (R92, R97). -/
def sum8 (a b : Byte) : Byte := BitVec.ofNat 8 ((a.toNat + b.toNat) % 256)

/-- `a - b mod 256` (R98, R100). -/
def diff8 (a b : Byte) : Byte := BitVec.ofNat 8 ((a.toNat + (256 - b.toNat)) % 256)

/-- `a >> 1` (R99). -/
def shr8 (a : Byte) : Byte := a >>> 1

/-- `(a << 1) mod 256` (R101). -/
def shl8 (a : Byte) : Byte := a <<< 1

/-- The flag write and the result write of 8XY4 to 8XYE (R90). In text order `VF` is written first and the result is
computed from the registers as that write left them; in `flagLast` order both are computed first and `VF` is written
last. -/
def State.writeFlagged (s : State) (o : FlagOrder) (x : Reg) (flag : State → Bool) (result : State → Byte) : State :=
  match o with
  | .textOrder =>
    let s' := s.setV VF (boolByte (flag s))
    s'.setV x (result s')
  | .flagLast => (s.setV x (result s)).setV VF (boolByte (flag s))

end Sys2Proof.Machine
end

