-- ==== Sys2Proof/Machine/Alu.lean ====
section
/-! DEFINITION. Register loads and arithmetic (43_alu.md). -/

namespace Sys2Proof.Machine

/-- LD Vx, nn (R91). -/
def execLdImm (x : Reg) (nn : Byte) (s : State) : Host.Outcome State Fault Refusal := .next (s.setV x nn)

/-- ADD Vx, nn (R92): no flag. -/
def execAddImm (x : Reg) (nn : Byte) (s : State) : Host.Outcome State Fault Refusal :=
  .next (s.setV x (sum8 (s.getV x) nn))

/-- LD Vx, Vy (R93). -/
def execLdReg (x y : Reg) (s : State) : Host.Outcome State Fault Refusal := .next (s.setV x (s.getV y))

/-- OR Vx, Vy (R94): no flag. -/
def execOrReg (x y : Reg) (s : State) : Host.Outcome State Fault Refusal :=
  .next (s.setV x (s.getV x ||| s.getV y))

/-- AND Vx, Vy (R95): no flag. -/
def execAndReg (x y : Reg) (s : State) : Host.Outcome State Fault Refusal :=
  .next (s.setV x (s.getV x &&& s.getV y))

/-- XOR Vx, Vy (R96): no flag. -/
def execXorReg (x y : Reg) (s : State) : Host.Outcome State Fault Refusal :=
  .next (s.setV x (s.getV x ^^^ s.getV y))

/-- ADD Vx, Vy (R97): both operands are read before `VF` is written. -/
def execAddReg (x y : Reg) (s : State) : Host.Outcome State Fault Refusal :=
  .next (s.writeFlagged hw.flagOrder x
    (fun _ => carryOut (s.getV x) (s.getV y))
    (fun _ => sum8 (s.getV x) (s.getV y)))

/-- SUB Vx, Vy (R98). -/
def execSubReg (x y : Reg) (s : State) : Host.Outcome State Fault Refusal :=
  .next (s.writeFlagged hw.flagOrder x
    (fun t => noBorrow (t.getV x) (t.getV y))
    (fun t => diff8 (t.getV x) (t.getV y)))

/-- SHR Vx (R99): in place on `V[x]`; `y` is ignored. -/
def execShr (x _y : Reg) (s : State) : Host.Outcome State Fault Refusal :=
  .next (s.writeFlagged hw.flagOrder x (fun t => shrOut (t.getV x)) (fun t => shr8 (t.getV x)))

/-- SUBN Vx, Vy (R100). -/
def execSubnReg (x y : Reg) (s : State) : Host.Outcome State Fault Refusal :=
  .next (s.writeFlagged hw.flagOrder x
    (fun t => noBorrow (t.getV y) (t.getV x))
    (fun t => diff8 (t.getV y) (t.getV x)))

/-- SHL Vx (R101): in place on `V[x]`; `y` is ignored. -/
def execShl (x _y : Reg) (s : State) : Host.Outcome State Fault Refusal :=
  .next (s.writeFlagged hw.flagOrder x (fun t => shlOut (t.getV x)) (fun t => shl8 (t.getV x)))

end Sys2Proof.Machine
end

