-- ==== Sys2Proof/Machine/Operands.lean ====
section
/-! DEFINITION. The operand forms of 30_encoding.md R55 beyond a plain register: immediates and their widths (R54),
the skip, the key a register names, the lowest pressed key, the glyph's address, the draw's start point and the
decimal digits of a byte. -/

namespace Sys2Proof.Machine

/-- An address immediate at the width of `pc` and `I`: zero-extended (R54). -/
def immWord (nnn : Imm12) : Word := nnn.setWidth 16

/-- A byte at the width of `I` and `pc`: zero-extended (R103, R117). -/
def byteWord (v : Byte) : Word := v.setWidth 16

/-- A skip: a further 2 on the advanced `pc` when the condition holds (R70). -/
def State.skipIf (s : State) (c : Bool) : State := if c then s.advance else s

/-- Is the key that a register's value names pressed (R110, R113): the key's flag for 0 to 15; for a larger value, a
fresh draw of the environment (`P_KEY_OOB`, log entry 2). The second component is the state with the draw counted. -/
def State.readKey (s : State) (k : Byte) : Bool × State :=
  if k.toNat < 16 then (s.key.getLsbD k.toNat, s) else (Config.keyDraw s.draws, s.countDraw)

/-- The least pressed key, if any (R112). -/
def State.lowestKey (s : State) : Option Reg := allRegs.find? (fun k => s.key.getLsbD k.val)

/-- A register number as a byte: what FX0A stores (R112). -/
def regByte (k : Reg) : Byte := BitVec.ofNat 8 k.val

/-- The glyph's address: the whole byte times 5 (R118). -/
def glyphAddress (v : Byte) : Word := byteWord v * 5#16

/-- The start column: `V[x] mod 64` (R106). -/
def startCol (v : Byte) : Nat := v.toNat % dispW

/-- The start row: `V[y] mod 32`, the display's height (R106; 90_conflicts.md C2). -/
def startRow (v : Byte) : Nat := v.toNat % dispH

/-- The decimal digits of a byte, hundreds first (R120). -/
def bcdDigits (v : Byte) : List Byte :=
  [BitVec.ofNat 8 (v.toNat / 100), BitVec.ofNat 8 (v.toNat / 10 % 10), BitVec.ofNat 8 (v.toNat % 10)]

end Sys2Proof.Machine
end

