-- ==== Sys2Proof/Machine/Draw.lean ====
section
/-! DEFINITION. Sprite draw (45_draw.md). -/

namespace Sys2Proof.Machine

/-- The whole sprite of DXYN drawn on the display of a state, or `none` where a drawn row lies outside memory (R105).
The start point is read before `VF` is written (R106). -/
def State.drawSprite (s : State) (p : AddrOob) (x y : Reg) (n : Nibble) : Option Canvas :=
  Canvas.plotRows p s.mem s.I.toNat (startCol (s.getV x)) (startRow (s.getV y)) n.toNat 0 ⟨s.disp, false⟩

/-- DRW Vx, Vy, n (R105). -/
def execDrw (x y : Reg) (n : Nibble) (s : State) : Host.Outcome State Fault Refusal :=
  match s.drawSprite hw.addrOob x y n with
  | some c => .next ((s.setDisp c.disp).setV VF (boolByte c.hit))
  | none => .next (s.raiseFault .memoryBounds (.drw x y n))

end Sys2Proof.Machine
end

