-- ==== Sys2Proof/Machine/Flow.lean ====
section
/-! DEFINITION. System, clear, return, jump and call (41_flow.md). Every meaning starts with `pc` at the
instruction's address plus 2 (R10, R70). -/

namespace Sys2Proof.Machine

/-- SYS nnn (R81): nothing beyond the advance of `pc`. -/
def execSys (_nnn : Imm12) (s : State) : Host.Outcome State Fault Refusal := .next s

/-- CLS (R82). -/
def execCls (s : State) : Host.Outcome State Fault Refusal := .next (s.setDisp 0#2048)

/-- RET (R83). -/
def execRet (s : State) : Host.Outcome State Fault Refusal :=
  match s.pop with
  | some (target, s') => .next (s'.setPc target)
  | none => .next (s.raiseFault .stackUnderflow .ret)

/-- JP nnn (R84). -/
def execJp (nnn : Imm12) (s : State) : Host.Outcome State Fault Refusal := .next (s.setPc (immWord nnn))

/-- CALL nnn (R85). -/
def execCall (nnn : Imm12) (s : State) : Host.Outcome State Fault Refusal :=
  match s.push s.pc with
  | some s' => .next (s'.setPc (immWord nnn))
  | none => .next (s.raiseFault .stackOverflow (.call nnn))

end Sys2Proof.Machine
end

