-- ==== Sys2Proof/Machine/IndexJumpRandom.lean ====
section
/-! DEFINITION. Index load, indexed jump and random (44_index_jump_random.md). -/

namespace Sys2Proof.Machine

/-- LD I, nnn (R102). -/
def execLdI (nnn : Imm12) (s : State) : Host.Outcome State Fault Refusal := .next (s.setI (immWord nnn))

/-- JP V0, nnn (R103): always `V[0]`, and the sum is not reduced to 12 bits. -/
def execJpV0 (nnn : Imm12) (s : State) : Host.Outcome State Fault Refusal :=
  .next (s.setPc (immWord nnn + byteWord (s.getV 0)))

/-- RND Vx, nn (R104): one fresh draw of a byte per execution. -/
def execRnd (x : Reg) (nn : Byte) (s : State) : Host.Outcome State Fault Refusal :=
  .next (s.countDraw.setV x (Config.randomByte s.draws &&& nn))

end Sys2Proof.Machine
end

