-- ==== Sys2Proof/Machine/Keypad.lean ====
section
/-! DEFINITION. Keypad skips and key-wait (46_keypad.md). -/

namespace Sys2Proof.Machine

/-- SKP Vx (R110). -/
def execSkp (x : Reg) (s : State) : Host.Outcome State Fault Refusal :=
  match s.readKey (s.getV x) with
  | (p, s') => .next (s'.skipIf p)

/-- SKNP Vx (R111). -/
def execSknp (x : Reg) (s : State) : Host.Outcome State Fault Refusal :=
  match s.readKey (s.getV x) with
  | (p, s') => .next (s'.skipIf (!p))

/-- LD Vx, K (R112): take the least pressed key, or go back to the instruction's own address and wait (R113). -/
def execLdKey (x : Reg) (s : State) : Host.Outcome State Fault Refusal :=
  match s.lowestKey with
  | some k => .next ((s.setV x (regByte k)).setAwaiting false)
  | none => .next (s.rewind.setAwaiting true)

end Sys2Proof.Machine
end

