-- ==== Sys2Proof/Machine/MemoryOps.lean ====
section
/-! DEFINITION. Memory store and load (48_memory_ops.md). Under `P_MEMOPS = absent` each is a no-op (R119). -/

namespace Sys2Proof.Machine

/-- LD B, Vx (R120): the three decimal digits of `V[x]` at `I`, `I + 1`, `I + 2`. -/
def execLdB (x : Reg) (s : State) : Host.Outcome State Fault Refusal :=
  match hw.memOps with
  | .absent => .next s
  | .standard =>
    match storeBytes hw.addrOob s.I.toNat (bcdDigits (s.getV x)) s.mem with
    | some m => .next (s.setMem m)
    | none => .next (s.raiseFault .memoryBounds (.ldB x))

/-- LD [I], Vx (R121): `V[0]` to `V[x]` at `I` to `I + x`. -/
def execStoreRegs (x : Reg) (s : State) : Host.Outcome State Fault Refusal :=
  match hw.memOps with
  | .absent => .next s
  | .standard =>
    match storeRun hw.addrOob s.V s.I.toNat (regsUpTo x) s.mem with
    | some m => .next ((s.setMem m).setI (indexAfter hw.lsI s.I x))
    | none => .next (s.raiseFault .memoryBounds (.storeRegs x))

/-- LD Vx, [I] (R122): `V[0]` to `V[x]` from `I` to `I + x`. -/
def execLoadRegs (x : Reg) (s : State) : Host.Outcome State Fault Refusal :=
  match hw.memOps with
  | .absent => .next s
  | .standard =>
    match loadRun hw.addrOob s.mem s.I.toNat (regsUpTo x) s.V with
    | some V => .next ((s.setRegs V).setI (indexAfter hw.lsI s.I x))
    | none => .next (s.raiseFault .memoryBounds (.loadRegs x))

end Sys2Proof.Machine
end

