-- ==== Sys2Proof/Machine/TimersIndex.lean ====
section
/-! DEFINITION. Timer access, index arithmetic and glyph address (47_timers_index.md). -/

namespace Sys2Proof.Machine

/-- LD Vx, DT (R114). -/
def execLdFromDT (x : Reg) (s : State) : Host.Outcome State Fault Refusal := .next (s.setV x s.DT)

/-- LD DT, Vx (R115). -/
def execLdDT (x : Reg) (s : State) : Host.Outcome State Fault Refusal := .next (s.setDT (s.getV x))

/-- LD ST, Vx (R116). -/
def execLdST (x : Reg) (s : State) : Host.Outcome State Fault Refusal := .next (s.setST (s.getV x))

/-- ADD I, Vx (R117): modulo 65536, no flag. -/
def execAddI (x : Reg) (s : State) : Host.Outcome State Fault Refusal :=
  .next (s.setI (s.I + byteWord (s.getV x)))

/-- LD F, Vx (R118). -/
def execLdF (x : Reg) (s : State) : Host.Outcome State Fault Refusal := .next (s.setI (glyphAddress (s.getV x)))

end Sys2Proof.Machine
end

