-- ==== Sys2Proof/Machine/Step.lean ====
section
/-! DEFINITION. One step of the core (40_execution_cycle.md R67 to R77), and the host's way of placing the word the
next step fetches. -/

namespace Sys2Proof.Machine

/-- One fetch-decode-execute step (R77). Paused or halted, it changes nothing (R67). A fetch outside memory is a fatal
fault with `fault_op = 0` (R68, R74). An unrecognized word only advances `pc` (R73). Otherwise the decoded
instruction runs with `pc` already advanced (R70). -/
def step (s : State) : Host.Outcome State Fault Refusal :=
  if s.enabled then
    match fetchWord hw.addrOob hw.oddPc s.mem s.pc.toNat with
    | none => .next (s.takeFault .memoryBounds s.pc 0#16)
    | some op =>
      match decodeWord op with
      | none => .next s.advance
      | some i => exec i s.advance
  else .next s

/-- `s` with the word stored where `step` fetches next, and whatever that fetch needs: both bytes at `pc`, high byte
first (`pc` moved to 0x200 only where there is no room for a word at it), and the core neither paused nor halted
(log entry 5). -/
def State.withFetchWord (s : State) (nbits w : Nat) : State := s.placeWord (tableWord nbits w)

end Sys2Proof.Machine
end

