-- ==== Sys2Proof/Machine/Events.lean ====
section
/-! DEFINITION. The events that drive the core and what the host reads between them (40_execution_cycle.md R65, R66,
R79; 60_exceptions.md; 70_reset_and_hazards.md). The order of events is the open parameter `SCHED`: it is the
argument of `runEvents`. -/

namespace Sys2Proof.Machine

/-- The timer decrement of one tick: never below 0 (R133). -/
def countDown (t : Byte) : Byte := if t = 0#8 then 0#8 else t - 1#8

/-- `tick` (R133): both timers count down, unless paused or halted. -/
def State.tick (s : State) : State :=
  if s.enabled then (s.setDT (countDown s.DT)).setST (countDown s.ST) else s

/-- `pause` (R139). -/
def State.pause (s : State) : State := s.setRunState .paused

/-- `resume` (R139). -/
def State.resume (s : State) : State := s.setRunState .running

/-- `set_keys(k16)` (R136). -/
def State.setKeys (s : State) (k : BitVec 16) : State := s.setKey k

/-- `reset(rom)` (R141, R142, R144): everything as `State.reset`, with the ROM's bytes from 0x200 on; a ROM of more
than 3584 bytes is not copied and leaves `halt = 4`. The count of draws is the environment's and goes on (log entry
6), so that a later draw is still a fresh one. -/
def State.initialise (s : State) (rom : List Byte) : State :=
  { State.reset with
    mem := if maxRom < rom.length then [] else cellsFrom progBase rom
    halt := if maxRom < rom.length then .romTooLarge else .none
    draws := s.draws }

/-- `2 ^ 12`: the `rom_len` port counts fewer bytes than this (R79). -/
def romLenBound : Nat := 4096

/-- A ROM image as the ports carry it (R79): its bytes on `rom`, and their number on the 12 bits of `rom_len`. -/
structure Rom where
  bytes : List Byte
  fits  : bytes.length < romLenBound
  deriving DecidableEq, Repr

/-- The 12 bits on the `rom_len` port (R79). -/
def Rom.len (r : Rom) : BitVec 12 := BitVec.ofNat 12 r.bytes.length

/-- The events, with the widths of their ports (R66, R79). -/
inductive Event where
  | step
  | tick
  | pause
  | resume
  | setKeys (k : BitVec 16)
  | reset (rom : Rom)
  | quit
  deriving DecidableEq, Repr

/-- One event, applied whole (R66, R75). `quit` is the host's and leaves the core's state as it is (R140). -/
def State.apply (s : State) (e : Event) : Host.Outcome State Fault Refusal :=
  match e with
  | .step => Sys2Proof.Machine.step s
  | .tick => .next s.tick
  | .pause => .next s.pause
  | .resume => .next s.resume
  | .setKeys k => .next (s.setKeys k)
  | .reset rom => .next (s.initialise rom.bytes)
  | .quit => .next s

/-- A schedule of events, in order; after `quit` the host sends no more (R140). -/
def runEvents : List Event → State → Host.Outcome State Fault Refusal
  | [], s => .next s
  | e :: es, s =>
    match s.apply e with
    | .next s' => if e = .quit then .next s' else runEvents es s'
    | .fault r => .fault r
    | .refused r => .refused r

/-! ## What the host reads (R79) -/

/-- The tone output: `ST != 0`, whatever `paused` is (R134). -/
def State.tone (s : State) : Bool := decide (s.ST ≠ 0#8)

/-- The `awaiting_key` output (R26). -/
def State.awaitingOut (s : State) : Bool := s.awaitingKey

/-- The 3-bit code on the `halt` output (R27, R79). -/
def HaltCode.code : HaltCode → BitVec 3
  | .none => 0#3
  | .stackOverflow => 1#3
  | .stackUnderflow => 2#3
  | .memoryBounds => 3#3
  | .romTooLarge => 4#3

/-- The 1-bit `paused` output (R25, R79). -/
def RunState.bit : RunState → Bool
  | .running => false
  | .paused => true

/-- The outputs of the block between events (R79). -/
structure Outputs where
  disp        : BitVec 2048
  tone        : Bool
  paused      : Bool
  awaitingKey : Bool
  halt        : BitVec 3
  faultPc     : Word
  faultOp     : Word
  deriving DecidableEq, Repr

/-- What the host reads of a state (R79). -/
def State.outputs (s : State) : Outputs :=
  ⟨s.disp, s.tone, s.runState.bit, s.awaitingOut, s.halt.code, s.faultPc, s.faultOp⟩

/-- Does the core report a word as unrecognized when it runs it: a word outside the opcode map (R73), the SYS space
(R81), and FX33, FX55, FX65 where they are absent (R119). -/
def reportsUnrecognized (op : Word) : Bool :=
  match decodeWord op with
  | none => true
  | some (.sys _) => true
  | some (.ldB _) => decide (hw.memOps = .absent)
  | some (.storeRegs _) => decide (hw.memOps = .absent)
  | some (.loadRegs _) => decide (hw.memOps = .absent)
  | some _ => false

/-- The diagnostic event `unrecognized(a, op)` that a `step` from this state emits, if any (R73). It is an output, not
state: nothing reads it. -/
def State.diagnostic (s : State) : Option (Word × Word) :=
  if s.enabled then
    match fetchWord hw.addrOob hw.oddPc s.mem s.pc.toNat with
    | none => none
    | some op => if reportsUnrecognized op then some (s.pc, op) else none
  else none

end Sys2Proof.Machine
end

