-- ==== Sys2Proof/Safety.lean ====
section
/-! DEFINITION. What counts as a safe run, in the terms claims use: the invariants every event keeps, the end of a run
and the parked state (40_execution_cycle.md R80). -/

namespace Sys2Proof.Machine

/-- A run has ended when the core is halted (R80); quitting is the host's. -/
def State.Ended (s : State) : Prop := s.halt ≠ .none

/-- Both bytes of the word at `pc` lie in memory, so the fetch does not fault (R41, R68). -/
def State.Fetchable (s : State) : Prop := s.pc.toNat + 1 < memSize

/-- The word the next step fetches, where it lies in memory (R68). -/
def State.nextWord (s : State) : Word := s.wordAt s.pc.toNat

/-- PARKED (R80): the word at `pc` is a jump to itself. -/
def State.Parked (s : State) : Prop :=
  s.Fetchable ∧ ∃ nnn : Imm12, decodeWord s.nextWord = some (.jp nnn) ∧ immWord nnn = s.pc

/-- Memory is in its canonical form. -/
def State.MemCanonical (s : State) : Prop := Memory.wf s.mem = true

/-- While `awaiting_key` is 1, `pc` holds the address of an FX0A word (R113). -/
def State.WaitsAtKeyWord (s : State) : Prop :=
  s.awaitingKey = true → s.Fetchable ∧ ∃ x : Reg, decodeWord s.nextWord = some (.ldKey x)

/-- `pc` is at most 0x10FE (R77), and every open call's return address at most 0x1000 (R83). -/
def State.AddressesBounded (s : State) : Prop :=
  s.pc.toNat ≤ 0x10FE ∧ ∀ (k : Nat) (h : k < 12), k < s.sp.val → (s.stack[k]'h).toNat ≤ 0x1000

/-- With no fault there is no fault record (R27, R31). -/
def State.RecordClear (s : State) : Prop := s.halt = .none → s.faultPc = 0#16 ∧ s.faultOp = 0#16

/-- A stopped core stopped for a reason that its record fits: `pc` is at the recorded address, unless the ROM was
rejected, when nothing has run (R74, R123, R142). -/
def State.RecordFits (s : State) : Prop :=
  (s.halt = .stackOverflow ∨ s.halt = .stackUnderflow ∨ s.halt = .memoryBounds → s.pc = s.faultPc) ∧
  (s.halt = .romTooLarge → s.pc = 0x200#16 ∧ s.faultPc = 0#16 ∧ s.faultOp = 0#16)

/-- The machine's invariant. -/
structure State.Inv (s : State) : Prop where
  memCanonical : s.MemCanonical
  waitsAtKeyWord : s.WaitsAtKeyWord
  addressesBounded : s.AddressesBounded
  recordClear : s.RecordClear
  recordFits : s.RecordFits

end Sys2Proof.Machine
end

