-- ==== Sys2Proof/Certificates/Slice0/Obligations.lean ====
section
/-! DEFINITION. The statements for the provers. `exec i s` is the meaning of `i` with `pc` already advanced: in every
statement about `exec`, `s.pc` is the instruction's address plus 2 (R10, R70); the statement
`StepRunsDecodedInstruction` carries each of them to a step. -/

namespace Sys2Proof.Claims

open Sys2Proof.Machine

/-! ## What stays the same -/

/-- The pieces of the state (R34), and the model's own count of draws. -/
inductive Part where
  | regs
  | index
  | pc
  | stack
  | sp
  | disp
  | keys
  | delay
  | sound
  | mem
  | run
  | awaiting
  | fault
  | draws
  deriving DecidableEq, Repr

/-- The piece holds the same in both states; memory byte by byte, the display cell by cell. -/
def Part.same : Part → State → State → Prop
  | .regs, s, t => ∀ r, t.getV r = s.getV r
  | .index, s, t => t.I = s.I
  | .pc, s, t => t.pc = s.pc
  | .stack, s, t => ∀ (k : Nat) (h : k < 12), t.stack[k]'h = s.stack[k]'h
  | .sp, s, t => t.sp = s.sp
  | .disp, s, t => ∀ col row, col < 64 → row < 32 → t.cell col row = s.cell col row
  | .keys, s, t => t.key = s.key
  | .delay, s, t => t.DT = s.DT
  | .sound, s, t => t.ST = s.ST
  | .mem, s, t => ∀ a, t.byteAt a = s.byteAt a
  | .run, s, t => t.runState = s.runState
  | .awaiting, s, t => t.awaitingKey = s.awaitingKey
  | .fault, s, t => t.halt = s.halt ∧ t.faultPc = s.faultPc ∧ t.faultOp = s.faultOp
  | .draws, s, t => t.draws = s.draws

/-- Every piece but the named ones is the same. -/
def SameBut (ps : List Part) (s t : State) : Prop := ∀ p, p ∉ ps → p.same s t

/-- Every general register but the named ones is the same. -/
def SameRegsBut (rs : List Reg) (s t : State) : Prop := ∀ r, r ∉ rs → t.getV r = s.getV r

/-- Only general registers changed, and of them only the named ones. -/
def OnlyRegs (rs : List Reg) (s t : State) : Prop := SameBut [.regs] s t ∧ SameRegsBut rs s t

/-- The meaning of an instruction took a fatal fault (R74): the kind, the instruction's address and its word are
recorded, `pc` is back at that address, and nothing else changed. -/
def FaultTaken (kind : HaltCode) (op : Word) (s t : State) : Prop :=
  t.halt = kind ∧ t.faultPc = s.pc - 2#16 ∧ t.faultOp = op ∧ t.pc = s.pc - 2#16 ∧ SameBut [.pc, .fault] s t

/-- A row of the opcode map (R59): a word is the instruction exactly when its masked bits are the pattern, with the
operands its fields give. -/
def Row (mask pattern : Word) (f : Word → Instr) : Prop :=
  ∀ op : Word, op &&& mask = pattern ↔ decodeWord op = some (f op)

/-! ## Sprites -/

/-- Every drawn row of the sprite lies in memory (R105, R109): rows past the bottom edge are not read. -/
def SpriteFits (s : State) (y : Reg) (n : Nibble) : Prop :=
  ∀ k, k < n.toNat → (s.getV y).toNat % 32 + k < 32 → s.I.toNat + k < 4096

/-- Does the sprite put an on bit on the cell (R105 to R109). -/
def spriteBit (s : State) (x y : Reg) (n : Nibble) (col row : Nat) : Bool :=
  let x0 := (s.getV x).toNat % 64
  let y0 := (s.getV y).toNat % 32
  decide (y0 ≤ row) && decide (row < y0 + n.toNat) && decide (x0 ≤ col) && decide (col < x0 + 8) &&
    (s.byteAt (s.I.toNat + (row - y0))).getLsbD (7 - (col - x0))

/-- Some on bit of the sprite falls on a cell that is on (R108). -/
def Collides (s : State) (x y : Reg) (n : Nibble) : Prop :=
  ∃ col row, col < 64 ∧ row < 32 ∧ spriteBit s x y n col row = true ∧ s.cell col row = true

/-! ## What an instruction may change -/

/-- The general registers an instruction may write (R14, R15). -/
def mayWrite : Instr → List Reg
  | .ldImm x _ => [x]
  | .addImm x _ => [x]
  | .ldReg x _ => [x]
  | .orReg x _ => [x]
  | .andReg x _ => [x]
  | .xorReg x _ => [x]
  | .addReg x _ => [x, VF]
  | .subReg x _ => [x, VF]
  | .shr x _ => [x, VF]
  | .subnReg x _ => [x, VF]
  | .shl x _ => [x, VF]
  | .rnd x _ => [x]
  | .drw _ _ _ => [VF]
  | .ldKey x => [x]
  | .ldFromDT x => [x]
  | .loadRegs x => regsUpTo x
  | _ => []

/-- The addresses an instruction stores to (R36): `I` to `I + 2` for FX33, `I` to `I + x` for FX55. -/
def stores (i : Instr) (s : State) (a : Nat) : Prop :=
  match i with
  | .ldB _ => s.I.toNat ≤ a ∧ a ≤ s.I.toNat + 2
  | .storeRegs x => s.I.toNat ≤ a ∧ a ≤ s.I.toNat + x.val
  | _ => False

/-- Two states that differ at most in stack entries no open call uses (R19). -/
def SameUpToDeadStack (s t : State) : Prop :=
  SameBut [.stack, .disp, .mem] s t ∧ t.disp = s.disp ∧ t.mem = s.mem ∧
    ∀ (k : Nat) (h : k < 12), k < s.sp.val → t.stack[k]'h = s.stack[k]'h

end Sys2Proof.Claims

open Sys2Proof Sys2Proof.Machine Sys2Proof.Claims

/-! ## Decoding and encoding -/

/-- Decoding the word of a well-formed instruction gives the instruction back, with every operand. -/
def Obligations.DecodeOfEncodeIsTheInstruction : Prop :=
  ∀ i : Instr, i.WellFormed → decodeWord (encode i) = some i

/-- A word that decodes is the word of the instruction it decodes to, which is well-formed: no bit of it is dropped. -/
def Obligations.EncodeOfDecodeIsTheWord : Prop :=
  ∀ (op : Word) (i : Instr), decodeWord op = some i → encode i = op ∧ i.WellFormed

/-- The decoder finds the row of R59's table that the word matches. -/
def Obligations.DecoderFollowsOpcodeMap : Prop :=
  ∀ op : Word, (decodeWord op).map Instr.rowNumber = (opcodeMap.find? (fun r => r.accepts op)).map OpcodeRow.number

/-- No word matches two rows of R59's table. -/
def Obligations.NoWordMatchesTwoRows : Prop :=
  ∀ (op : Word) (r r' : OpcodeRow), r ∈ opcodeMap → r' ∈ opcodeMap → r.accepts op = true → r'.accepts op = true → r = r'

/-- The unrecognized words are exactly those R60 lists (under `P_MEMOPS = standard`). -/
def Obligations.UnrecognizedWordsAreThese : Prop :=
  ∀ op : Word, decodeWord op = none ↔
    ((fieldTop op = 0x5#4 ∨ fieldTop op = 0x9#4) ∧ fieldN op ≠ 0x0#4) ∨
    (fieldTop op = 0x8#4 ∧ fieldN op ∈ [0x8#4, 0x9#4, 0xA#4, 0xB#4, 0xC#4, 0xD#4, 0xF#4]) ∨
    (fieldTop op = 0xE#4 ∧ fieldNN op ∉ [0x9E#8, 0xA1#8]) ∨
    (fieldTop op = 0xF#4 ∧
      fieldNN op ∉ [0x07#8, 0x0A#8, 0x15#8, 0x18#8, 0x1E#8, 0x29#8, 0x33#8, 0x55#8, 0x65#8])

/-- Words of the spec's vectors (L1.10, L2.1), read as it says: the three forms of family 0 among them. That SYS and
FX33 are instructions is decision D1 (log entry 3). -/
def Obligations.SampleWordsDecode : Prop :=
  decodeWord 0x0000#16 = some (.sys 0x000#12) ∧ decodeWord 0x00E0#16 = some .cls ∧
  decodeWord 0x00EE#16 = some .ret ∧ decodeWord 0x00E1#16 = some (.sys 0x0E1#12) ∧ decodeWord 0x01EE#16 = some (.sys 0x1EE#12) ∧
  decodeWord 0x5120#16 = some (.seReg 1 2) ∧ decodeWord 0x5121#16 = none ∧
  decodeWord 0x812E#16 = some (.shl 1 2) ∧ decodeWord 0xD123#16 = some (.drw 1 2 3#4) ∧
  decodeWord 0xE19E#16 = some (.skp 1) ∧ decodeWord 0xF133#16 = some (.ldB 1)

/-! ## The step -/

/-- A step runs the instruction that the two bytes at `pc` decode to, with `pc` advanced by 2 first; at an
odd `pc` as at an even one (`P_ODD_PC = fetch`, decision D4, log entry 3). -/
def Obligations.StepRunsDecodedInstruction : Prop :=
  ∀ (s : State) (i : Instr), s.runState = .running → s.halt = .none → s.pc.toNat + 1 < 4096 →
    decodeWord (wordOfBytes (s.byteAt s.pc.toNat) (s.byteAt (s.pc.toNat + 1))) = some i →
    step s = exec i (s.setPc (s.pc + 2#16))

/-- An unrecognized word changes no state beyond the advance of `pc`. -/
def Obligations.UnrecognizedWordOnlyAdvances : Prop :=
  ∀ s : State, s.runState = .running → s.halt = .none → s.pc.toNat + 1 < 4096 →
    decodeWord (wordOfBytes (s.byteAt s.pc.toNat) (s.byteAt (s.pc.toNat + 1))) = none →
    ∃ t, step s = .next t ∧ t.pc = s.pc + 2#16 ∧ SameBut [.pc] s t

/-- A fetch at 0x0FFF or above is a fatal fault: MEMORY_BOUNDS recorded with the address and word 0, nothing else
changed (this hardware's `P_ADDR_OOB = fault`, log entry 3). -/
def Obligations.FetchOutsideMemoryFaults : Prop :=
  ∀ s : State, s.runState = .running → s.halt = .none → 0x0FFF ≤ s.pc.toNat →
    ∃ t, step s = .next t ∧ t.halt = .memoryBounds ∧ t.faultPc = s.pc ∧ t.faultOp = 0#16 ∧ SameBut [.fault] s t

/-- Paused or halted, a step leaves every piece of state unchanged. -/
def Obligations.StepIgnoredWhilePausedOrHalted : Prop :=
  ∀ s : State, s.runState = .paused ∨ s.halt ≠ .none → step s = .next s

/-- No step stops the model: every state has a next state. -/
def Obligations.EveryStepAnswersNext : Prop := ∀ s : State, ∃ t, step s = .next t

/-- Faults are precise: if a step from a core that is not halted leaves it halted, then nothing else changed, `pc`
included, the recorded address is `pc`, the recorded word is the fetched one, or 0 where the fetch itself faulted, and
the kind is one of the three fatal kinds of a step. -/
def Obligations.FaultingStepIsUndone : Prop :=
  ∀ s t : State, s.halt = .none → step s = .next t → t.halt ≠ .none →
    SameBut [.fault] s t ∧ t.faultPc = s.pc ∧
    (s.pc.toNat + 1 < 4096 → t.faultOp = wordOfBytes (s.byteAt s.pc.toNat) (s.byteAt (s.pc.toNat + 1))) ∧
    (4096 ≤ s.pc.toNat + 1 → t.faultOp = 0#16) ∧
    (t.halt = .stackOverflow ∨ t.halt = .stackUnderflow ∨ t.halt = .memoryBounds)

/-- Which fault a step raises, and that it raises no other: the table of R123 (its first three rows). -/
def Obligations.StepFaultsExactlyWhen : Prop :=
  ∀ s t : State, s.runState = .running → s.halt = .none → step s = .next t →
    (t.halt = .stackOverflow ↔
      s.Fetchable ∧ (∃ nnn, decodeWord s.nextWord = some (.call nnn)) ∧ s.sp = 12) ∧
    (t.halt = .stackUnderflow ↔ s.Fetchable ∧ decodeWord s.nextWord = some .ret ∧ s.sp = 0) ∧
    (t.halt = .memoryBounds ↔
      ¬ s.Fetchable ∨
      (∃ x y n, decodeWord s.nextWord = some (.drw x y n) ∧ ¬ SpriteFits s y n) ∨
      (∃ x, decodeWord s.nextWord = some (.ldB x) ∧ 4096 ≤ s.I.toNat + 2) ∨
      (∃ x, decodeWord s.nextWord = some (.storeRegs x) ∧ 4096 ≤ s.I.toNat + x.val) ∨
      (∃ x, decodeWord s.nextWord = some (.loadRegs x) ∧ 4096 ≤ s.I.toNat + x.val)) ∧
    t.halt ≠ .romTooLarge

/-- A parked core stays as it is: a step leaves the state unchanged. -/
def Obligations.ParkedStepChangesNothing : Prop := ∀ s : State, s.Parked → step s = .next s

/-- After a reset with a ROM that fits, the first step runs the instruction its first two bytes make, with `pc` at
0x202. -/
def Obligations.FirstStepRunsFirstRomWord : Prop :=
  ∀ (s : State) (hi lo : Byte) (rest : List Byte) (i : Instr), (hi :: lo :: rest).length ≤ 3584 →
    decodeWord (wordOfBytes hi lo) = some i →
    step (s.initialise (hi :: lo :: rest)) = exec i ((s.initialise (hi :: lo :: rest)).setPc 0x202#16)

/-! ## Invariants -/

/-- The invariant holds at reset. -/
def Obligations.InvariantHoldsAtReset : Prop := State.reset.Inv

/-- Every step keeps the invariant: memory stays canonical, a waiting core is at an FX0A word, `pc` and every open
return address stay bounded, and the fault record fits the halt code. -/
def Obligations.StepKeepsInvariant : Prop := ∀ s t : State, s.Inv → step s = .next t → t.Inv

/-- Whatever the schedule of events, it runs to its end and the invariant holds there. -/
def Obligations.EveryScheduleKeepsInvariant : Prop :=
  ∀ (es : List Event) (s : State), s.Inv → ∃ t, runEvents es s = .next t ∧ t.Inv

/-! ## Whole-machine rules: what an instruction leaves alone -/

/-- An instruction changes no general register but those R14 and R15 say it writes. -/
def Obligations.OnlyNamedRegistersChange : Prop :=
  ∀ (i : Instr) (s t : State), exec i s = .next t → SameRegsBut (mayWrite i) s t

/-- An instruction changes no byte of memory but those it stores to. -/
def Obligations.OnlyStoredBytesChange : Prop :=
  ∀ (i : Instr) (s t : State), exec i s = .next t → ∀ a, ¬ stores i s a → t.byteAt a = s.byteAt a

/-- Only 2NNN and 00EE touch the stack: 2NNN changes at most the entry at `sp`, 00EE changes no entry. -/
def Obligations.OnlyCallAndReturnTouchTheStack : Prop :=
  ∀ (i : Instr) (s t : State), exec i s = .next t →
    ((∀ nnn, i ≠ .call nnn) → ∀ (k : Nat) (h : k < 12), t.stack[k]'h = s.stack[k]'h) ∧
    ((∃ nnn, i = .call nnn) → ∀ (k : Nat) (h : k < 12), k ≠ s.sp.val → t.stack[k]'h = s.stack[k]'h) ∧
    (i ≠ .ret → (∀ nnn, i ≠ .call nnn) → t.sp = s.sp)

/-- The display is written only by 00E0 and DXYN. -/
def Obligations.OnlyClearAndDrawChangeTheDisplay : Prop :=
  ∀ (i : Instr) (s t : State), exec i s = .next t → i ≠ .cls → (∀ x y n, i ≠ .drw x y n) →
    Part.disp.same s t

/-- Of the instructions, only FX15 writes `DT`, only FX18 writes `ST`, and only ANNN, FX1E and FX29 write `I`. -/
def Obligations.TimersAndIndexHaveTheirOwnWriters : Prop :=
  ∀ (i : Instr) (s t : State), exec i s = .next t →
    ((∀ x, i ≠ .ldDT x) → t.DT = s.DT) ∧
    ((∀ x, i ≠ .ldST x) → t.ST = s.ST) ∧
    ((∀ nnn, i ≠ .ldI nnn) → (∀ x, i ≠ .addI x) → (∀ x, i ≠ .ldF x) → t.I = s.I)

/-- No instruction writes the keypad or the run state, only FX0A writes `awaiting_key`, and the fault record changes
only together with a halt. -/
def Obligations.HostStateIsReadOnlyToInstructions : Prop :=
  ∀ (i : Instr) (s t : State), exec i s = .next t →
    t.key = s.key ∧ t.runState = s.runState ∧ ((∀ x, i ≠ .ldKey x) → t.awaitingKey = s.awaitingKey) ∧
    (t.halt = s.halt → s.halt = .none → t.faultPc = s.faultPc ∧ t.faultOp = s.faultOp)

/-- No instruction reads the sound timer: with another value in `ST` it does the same to everything else, and FX18
does the same to `ST` too. The two runs take the same draw at the same count: that is the model's choice (log entry 2), and
for CXNN, EX9E and EXA1 the statement rests on it. -/
def Obligations.SoundTimerIsNeverRead : Prop :=
  ∀ (i : Instr) (s : State) (v : Byte), ∃ t, exec i s = .next t ∧
    ((∀ x, i ≠ .ldST x) → exec i (s.setST v) = .next (t.setST v)) ∧
    ((∃ x, i = .ldST x) → exec i (s.setST v) = .next t)

/-- Stack entries that no open call uses are never read: two states that differ only in them stay so. The two runs
take the same draw at the same count: that is the model's choice (log entry 2), and for CXNN, EX9E and EXA1 the statement
rests on it. -/
def Obligations.DeadStackEntriesAreNeverRead : Prop :=
  ∀ (i : Instr) (s s' t : State), SameUpToDeadStack s s' → exec i s = .next t →
    ∃ t', exec i s' = .next t' ∧ SameUpToDeadStack t t'

/-- `awaiting_key` changes only at an FX0A or a reset: no other step, and no tick, pause, resume, key change or quit,
changes it. -/
def Obligations.AwaitingChangesOnlyAtKeyWaitOrReset : Prop :=
  ∀ (s t : State) (e : Event), s.apply e = .next t → (∀ rom, e ≠ .reset rom) →
    (e = .step → ∀ x, decodeWord s.nextWord ≠ some (.ldKey x)) → t.awaitingKey = s.awaitingKey

/-! ## System, clear, return, jump, call -/

/-- SYS nnn has no effect beyond the advance of `pc`. -/
def Obligations.SysHasNoEffect : Prop :=
  ∀ (nnn : Imm12) (s : State), ∃ t, exec (.sys nnn) s = .next t ∧ SameBut [] s t

/-- CLS turns every cell off and changes nothing else. -/
def Obligations.ClearTurnsEveryCellOff : Prop :=
  Row 0xFFFF#16 0x00E0#16 (fun _ => .cls) ∧
  ∀ s : State, ∃ t, exec .cls s = .next t ∧
    (∀ col row, col < 64 → row < 32 → t.cell col row = false) ∧ SameBut [.disp] s t

/-- RET with open calls pops the last return address into `pc`, and no stack entry changes; on an empty stack it
faults with STACK_UNDERFLOW, everything restored. -/
def Obligations.ReturnPopsTheLastAddress : Prop :=
  ∀ s : State,
    (∀ (k : Nat) (h : k < 12), s.sp.val = k + 1 →
      ∃ t, exec .ret s = .next t ∧ t.sp.val = k ∧ t.pc = s.stack[k]'h ∧ SameBut [.pc, .sp] s t) ∧
    (s.sp = 0 → ∃ t, exec .ret s = .next t ∧ FaultTaken .stackUnderflow 0x00EE#16 s t)

/-- JP nnn sets `pc` to the zero-extended address. -/
def Obligations.JumpSetsPc : Prop :=
  Row 0xF000#16 0x1000#16 (fun op => .jp (fieldNNN op)) ∧
  ∀ (nnn : Imm12) (s : State), ∃ t, exec (.jp nnn) s = .next t ∧ t.pc.toNat = nnn.toNat ∧ SameBut [.pc] s t

/-- CALL nnn with room on the stack pushes the advanced `pc` and jumps; on a full stack it faults with
STACK_OVERFLOW, everything restored (decision D11, log entries 1 and 12). -/
def Obligations.CallPushesReturnAddressAndJumps : Prop :=
  Row 0xF000#16 0x2000#16 (fun op => .call (fieldNNN op)) ∧
  ∀ (nnn : Imm12) (s : State),
    (∀ h : s.sp.val < 12, ∃ t, exec (.call nnn) s = .next t ∧
      t.stack[s.sp.val]'h = s.pc ∧ (∀ (k : Nat) (hk : k < 12), k ≠ s.sp.val → t.stack[k]'hk = s.stack[k]'hk) ∧
      t.sp.val = s.sp.val + 1 ∧ t.pc.toNat = nnn.toNat ∧ SameBut [.pc, .stack, .sp] s t) ∧
    (s.sp = 12 →
      ∃ t, exec (.call nnn) s = .next t ∧ FaultTaken .stackOverflow (0x2000#16 ||| nnn.setWidth 16) s t)

/-- A RET right after a CALL gives `pc` the value that would have followed the call, and the depth before it. -/
def Obligations.ReturnUndoesCall : Prop :=
  ∀ (nnn : Imm12) (s t : State), s.sp.val < 12 → exec (.call nnn) s = .next t →
    ∃ u, exec .ret t = .next u ∧ u.pc = s.pc ∧ u.sp = s.sp

/-! ## Skips -/

/-- The four register skips: a further 2 on `pc` when the condition holds, and nothing else, ever. -/
def Obligations.RegisterSkipsAddTwoToPc : Prop :=
  Row 0xF000#16 0x3000#16 (fun op => .seImm (fieldX op) (fieldNN op)) ∧
  Row 0xF000#16 0x4000#16 (fun op => .sneImm (fieldX op) (fieldNN op)) ∧
  Row 0xF00F#16 0x5000#16 (fun op => .seReg (fieldX op) (fieldY op)) ∧
  Row 0xF00F#16 0x9000#16 (fun op => .sneReg (fieldX op) (fieldY op)) ∧
  ∀ (x y : Reg) (nn : Byte) (s : State),
    (∃ t, exec (.seImm x nn) s = .next t ∧ t.pc = (if s.getV x = nn then s.pc + 2#16 else s.pc) ∧ SameBut [.pc] s t) ∧
    (∃ t, exec (.sneImm x nn) s = .next t ∧ t.pc = (if s.getV x = nn then s.pc else s.pc + 2#16) ∧ SameBut [.pc] s t) ∧
    (∃ t, exec (.seReg x y) s = .next t ∧ t.pc = (if s.getV x = s.getV y then s.pc + 2#16 else s.pc) ∧
      SameBut [.pc] s t) ∧
    (∃ t, exec (.sneReg x y) s = .next t ∧ t.pc = (if s.getV x = s.getV y then s.pc else s.pc + 2#16) ∧
      SameBut [.pc] s t)

/-! ## Loads and arithmetic -/

/-- 6XNN: `V[x] = nn`, for every `x`, `VF` included. -/
def Obligations.LoadImmediateSetsRegister : Prop :=
  Row 0xF000#16 0x6000#16 (fun op => .ldImm (fieldX op) (fieldNN op)) ∧
  ∀ (x : Reg) (nn : Byte) (s : State), ∃ t, exec (.ldImm x nn) s = .next t ∧ t.getV x = nn ∧ OnlyRegs [x] s t

/-- 7XNN: the sum modulo 256 and no flag: `VF` changes only as the destination. -/
def Obligations.AddImmediateWrapsWithoutFlag : Prop :=
  Row 0xF000#16 0x7000#16 (fun op => .addImm (fieldX op) (fieldNN op)) ∧
  ∀ (x : Reg) (nn : Byte) (s : State), ∃ t, exec (.addImm x nn) s = .next t ∧
    (t.getV x).toNat = ((s.getV x).toNat + nn.toNat) % 256 ∧ OnlyRegs [x] s t

/-- 8XY0: `V[x] = V[y]`. -/
def Obligations.CopyRegisterSetsRegister : Prop :=
  Row 0xF00F#16 0x8000#16 (fun op => .ldReg (fieldX op) (fieldY op)) ∧
  ∀ (x y : Reg) (s : State), ∃ t, exec (.ldReg x y) s = .next t ∧ t.getV x = s.getV y ∧ OnlyRegs [x] s t

/-- 8XY1, 8XY2, 8XY3: bitwise OR, AND and XOR into `V[x]`, bit by bit, and no flag. -/
def Obligations.LogicIsBitwiseWithoutFlag : Prop :=
  Row 0xF00F#16 0x8001#16 (fun op => .orReg (fieldX op) (fieldY op)) ∧
  Row 0xF00F#16 0x8002#16 (fun op => .andReg (fieldX op) (fieldY op)) ∧
  Row 0xF00F#16 0x8003#16 (fun op => .xorReg (fieldX op) (fieldY op)) ∧
  ∀ (x y : Reg) (s : State),
    (∃ t, exec (.orReg x y) s = .next t ∧
      (∀ b, (t.getV x).getLsbD b = ((s.getV x).getLsbD b || (s.getV y).getLsbD b)) ∧ OnlyRegs [x] s t) ∧
    (∃ t, exec (.andReg x y) s = .next t ∧
      (∀ b, (t.getV x).getLsbD b = ((s.getV x).getLsbD b && (s.getV y).getLsbD b)) ∧ OnlyRegs [x] s t) ∧
    (∃ t, exec (.xorReg x y) s = .next t ∧
      (∀ b, (t.getV x).getLsbD b = ((s.getV x).getLsbD b ^^ (s.getV y).getLsbD b)) ∧ OnlyRegs [x] s t)

/-- 8XY4: the sum modulo 256 in `V[x]` and the carry in `VF`; where `x` is `VF` the sum is written last
(text order, decision D8, log entry 3). Both operands are the values before the instruction. -/
def Obligations.AddRegistersSetsCarry : Prop :=
  Row 0xF00F#16 0x8004#16 (fun op => .addReg (fieldX op) (fieldY op)) ∧
  ∀ (x y : Reg) (s : State), ∃ t, exec (.addReg x y) s = .next t ∧
    (t.getV x).toNat = ((s.getV x).toNat + (s.getV y).toNat) % 256 ∧
    (x ≠ VF → (t.getV VF).toNat = if (s.getV x).toNat + (s.getV y).toNat > 255 then 1 else 0) ∧
    OnlyRegs [x, VF] s t

/-- 8XY5 and 8XY7: the no-borrow flag `f` in `VF`, then the difference modulo 256 in `V[x]`, where an operand that is
`VF` counts as `f` (text order, log entry 3). -/
def Obligations.SubtractionsInTextOrder : Prop :=
  ∀ (x y : Reg) (s : State),
    (∃ t f, exec (.subReg x y) s = .next t ∧ f = (if (s.getV x).toNat ≥ (s.getV y).toNat then 1 else 0) ∧
      (t.getV x).toNat =
        ((if x = VF then f else (s.getV x).toNat) + 256 - (if y = VF then f else (s.getV y).toNat)) % 256 ∧
      (x ≠ VF → (t.getV VF).toNat = f) ∧ OnlyRegs [x, VF] s t) ∧
    (∃ t f, exec (.subnReg x y) s = .next t ∧ f = (if (s.getV y).toNat ≥ (s.getV x).toNat then 1 else 0) ∧
      (t.getV x).toNat =
        ((if y = VF then f else (s.getV y).toNat) + 256 - (if x = VF then f else (s.getV x).toNat)) % 256 ∧
      (x ≠ VF → (t.getV VF).toNat = f) ∧ OnlyRegs [x, VF] s t)

/-- 8XY6 and 8XYE: the shift is in place on `V[x]` for every `y`, the bit shifted out is in `VF`; where `x` is `VF` the
shift applies to that bit, so `VF` ends 0 after 8XY6 and twice the bit after 8XYE (text order, log entry 3). -/
def Obligations.ShiftsInPlaceInTextOrder : Prop :=
  ∀ (x y : Reg) (s : State),
    (∃ t, exec (.shr x y) s = .next t ∧
      (x ≠ VF → (t.getV x).toNat = (s.getV x).toNat / 2 ∧ (t.getV VF).toNat = (s.getV x).toNat % 2) ∧
      (x = VF → t.getV VF = 0#8) ∧ OnlyRegs [x, VF] s t) ∧
    (∃ t, exec (.shl x y) s = .next t ∧
      (x ≠ VF → (t.getV x).toNat = (s.getV x).toNat * 2 % 256 ∧ (t.getV VF).toNat = (s.getV x).toNat / 128) ∧
      (x = VF → (t.getV VF).toNat = (s.getV VF).toNat / 128 * 2) ∧ OnlyRegs [x, VF] s t)

/-- The order of the flag write and the result write has no effect when neither operand is `VF`: for each of the five
instructions, the hardware's next state is the one either order gives. -/
def Obligations.FlagOrderMattersOnlyForVF : Prop :=
  ∀ (o : FlagOrder) (x y : Reg) (s : State), x ≠ VF → y ≠ VF →
    exec (.addReg x y) s = .next (s.writeFlagged o x
      (fun t => carryOut (t.getV x) (t.getV y)) (fun t => sum8 (t.getV x) (t.getV y))) ∧
    exec (.subReg x y) s = .next (s.writeFlagged o x
      (fun t => noBorrow (t.getV x) (t.getV y)) (fun t => diff8 (t.getV x) (t.getV y))) ∧
    exec (.subnReg x y) s = .next (s.writeFlagged o x
      (fun t => noBorrow (t.getV y) (t.getV x)) (fun t => diff8 (t.getV y) (t.getV x))) ∧
    exec (.shr x y) s = .next (s.writeFlagged o x (fun t => shrOut (t.getV x)) (fun t => shr8 (t.getV x))) ∧
    exec (.shl x y) s = .next (s.writeFlagged o x (fun t => shlOut (t.getV x)) (fun t => shl8 (t.getV x)))

/-! ## Index, indexed jump, random -/

/-- ANNN: `I` is the zero-extended address. -/
def Obligations.LoadIndexSetsI : Prop :=
  Row 0xF000#16 0xA000#16 (fun op => .ldI (fieldNNN op)) ∧
  ∀ (nnn : Imm12) (s : State), ∃ t, exec (.ldI nnn) s = .next t ∧ t.I.toNat = nnn.toNat ∧ SameBut [.index] s t

/-- BNNN: `pc` is the address plus `V[0]`, not reduced to 12 bits. -/
def Obligations.IndexedJumpAddsV0 : Prop :=
  Row 0xF000#16 0xB000#16 (fun op => .jpV0 (fieldNNN op)) ∧
  ∀ (nnn : Imm12) (s : State), ∃ t, exec (.jpV0 nnn) s = .next t ∧ t.pc.toNat = nnn.toNat + (s.getV 0).toNat ∧
    SameBut [.pc] s t

/-- CXNN: `V[x]` is a fresh draw of a byte, masked by `nn`: its bits are bits of `nn`, and the draw is the one at the
count, which goes up by one. It holds for every byte the draw may give. -/
def Obligations.RandomIsAMaskedFreshDraw : Prop :=
  ∀ (x : Reg) (nn : Byte) (s : State), ∃ t, exec (.rnd x nn) s = .next t ∧
    (∀ b, (t.getV x).getLsbD b = ((Config.randomByte s.draws).getLsbD b && nn.getLsbD b)) ∧
    t.draws = s.draws + 1 ∧ SameBut [.regs, .draws] s t ∧ SameRegsBut [x] s t

/-! ## Draw -/

/-- DXYN whose drawn rows lie in memory: each cell is XORed with the sprite's bit on it, clipped at the right and
bottom edges, `VF` is 1 when an on bit fell on an on cell and 0 otherwise, and nothing else changes. -/
def Obligations.DrawXorsTheSprite : Prop :=
  ∀ (x y : Reg) (n : Nibble) (s : State), SpriteFits s y n → ∃ t, exec (.drw x y n) s = .next t ∧
    (∀ col row, col < 64 → row < 32 → t.cell col row = (s.cell col row ^^ spriteBit s x y n col row)) ∧
    (Collides s x y n → t.getV VF = 1#8) ∧ (¬ Collides s x y n → t.getV VF = 0#8) ∧
    SameBut [.regs, .disp] s t ∧ SameRegsBut [VF] s t

/-- DXYN with a drawn row outside memory faults with MEMORY_BOUNDS, the display and `VF` restored. -/
def Obligations.DrawOutsideMemoryFaults : Prop :=
  ∀ (x y : Reg) (n : Nibble) (s : State), ¬ SpriteFits s y n →
    ∃ t, exec (.drw x y n) s = .next t ∧ FaultTaken .memoryBounds (encode (.drw x y n)) s t

/-- Drawing the same sprite twice gives the display back; if the first draw met no on cell and put some on bit on the
display, then `VF` is 0 after the first and 1 after the second. -/
def Obligations.DrawingTwiceRestoresTheDisplay : Prop :=
  ∀ (x y : Reg) (n : Nibble) (s t : State), x ≠ VF → y ≠ VF → SpriteFits s y n → exec (.drw x y n) s = .next t →
    ∃ u, exec (.drw x y n) t = .next u ∧ Part.disp.same s u ∧
      (¬ Collides s x y n → (∃ col row, col < 64 ∧ row < 32 ∧ spriteBit s x y n col row = true) →
        t.getV VF = 0#8 ∧ u.getV VF = 1#8)

/-! ## Keypad -/

/-- EX9E and EXA1: a further 2 on `pc` when the key `V[x]` names is pressed, or is not; for a value that names no key,
the answer is a fresh draw, whatever it is. -/
def Obligations.KeySkipsReadTheNamedKey : Prop :=
  ∀ (x : Reg) (s : State),
    ((s.getV x).toNat < 16 →
      (∃ t, exec (.skp x) s = .next t ∧
        t.pc = (if s.key.getLsbD (s.getV x).toNat then s.pc + 2#16 else s.pc) ∧ SameBut [.pc] s t) ∧
      (∃ t, exec (.sknp x) s = .next t ∧
        t.pc = (if s.key.getLsbD (s.getV x).toNat then s.pc else s.pc + 2#16) ∧ SameBut [.pc] s t)) ∧
    (16 ≤ (s.getV x).toNat →
      (∃ t, exec (.skp x) s = .next t ∧ t.pc = (if Config.keyDraw s.draws then s.pc + 2#16 else s.pc) ∧
        t.draws = s.draws + 1 ∧ SameBut [.pc, .draws] s t) ∧
      (∃ t, exec (.sknp x) s = .next t ∧ t.pc = (if Config.keyDraw s.draws then s.pc else s.pc + 2#16) ∧
        t.draws = s.draws + 1 ∧ SameBut [.pc, .draws] s t))

/-- FX0A with keys pressed takes the least of them and ends the wait; with none pressed it goes back to its own
address and waits. The bit `awaiting_key` is decision D18, and that a key already held is taken at once is decision D21
(log entry 12). -/
def Obligations.KeyWaitTakesTheLeastKeyOrWaits : Prop :=
  Row 0xF0FF#16 0xF00A#16 (fun op => .ldKey (fieldX op)) ∧
  ∀ (x : Reg) (s : State),
    (∀ k : Reg, s.key.getLsbD k.val = true → (∀ j : Reg, j < k → s.key.getLsbD j.val = false) →
      ∃ t, exec (.ldKey x) s = .next t ∧ (t.getV x).toNat = k.val ∧ t.awaitingKey = false ∧
        SameBut [.regs, .awaiting] s t ∧ SameRegsBut [x] s t) ∧
    ((∀ j : Reg, s.key.getLsbD j.val = false) →
      ∃ t, exec (.ldKey x) s = .next t ∧ t.pc = s.pc - 2#16 ∧ t.awaitingKey = true ∧ SameBut [.pc, .awaiting] s t)

/-! ## Timers and index arithmetic -/

/-- FX07, FX15, FX18: the timers are read and written whole, and the tone is on exactly when FX18 wrote a non-zero
value (the tone as a level is decision D16, log entry 12). -/
def Obligations.TimerLoadsMoveTheWholeTimer : Prop :=
  Row 0xF0FF#16 0xF007#16 (fun op => .ldFromDT (fieldX op)) ∧
  Row 0xF0FF#16 0xF015#16 (fun op => .ldDT (fieldX op)) ∧
  Row 0xF0FF#16 0xF018#16 (fun op => .ldST (fieldX op)) ∧
  ∀ (x : Reg) (s : State),
    (∃ t, exec (.ldFromDT x) s = .next t ∧ t.getV x = s.DT ∧ OnlyRegs [x] s t) ∧
    (∃ t, exec (.ldDT x) s = .next t ∧ t.DT = s.getV x ∧ SameBut [.delay] s t) ∧
    (∃ t, exec (.ldST x) s = .next t ∧ t.ST = s.getV x ∧ (t.tone = true ↔ s.getV x ≠ 0#8) ∧
      SameBut [.sound] s t)

/-- FX1E: `I` plus the whole byte, modulo 65536, and no flag. -/
def Obligations.AddToIndexWrapsWithoutFlag : Prop :=
  ∀ (x : Reg) (s : State), ∃ t, exec (.addI x) s = .next t ∧
    t.I.toNat = (s.I.toNat + (s.getV x).toNat) % 65536 ∧ SameBut [.index] s t

/-- FX29: `I` is 5 times the whole byte `V[x]`. -/
def Obligations.GlyphAddressIsFiveTimesRegister : Prop :=
  Row 0xF0FF#16 0xF029#16 (fun op => .ldF (fieldX op)) ∧
  ∀ (x : Reg) (s : State), ∃ t, exec (.ldF x) s = .next t ∧ t.I.toNat = (s.getV x).toNat * 5 ∧ SameBut [.index] s t

/-! ## Memory store and load -/

/-- FX33 stores the hundreds, tens and units digits of `V[x]` at `I`, `I + 1`, `I + 2`, and changes no other byte; with
`I + 2` outside memory it faults and stores nothing. -/
def Obligations.StoreDecimalDigits : Prop :=
  ∀ (x : Reg) (s : State),
    (s.I.toNat + 2 < 4096 → ∃ t, exec (.ldB x) s = .next t ∧
      (t.byteAt s.I.toNat).toNat = (s.getV x).toNat / 100 ∧
      (t.byteAt (s.I.toNat + 1)).toNat = (s.getV x).toNat / 10 % 10 ∧
      (t.byteAt (s.I.toNat + 2)).toNat = (s.getV x).toNat % 10 ∧
      (∀ a, a < s.I.toNat ∨ s.I.toNat + 2 < a → t.byteAt a = s.byteAt a) ∧ SameBut [.mem] s t) ∧
    (4096 ≤ s.I.toNat + 2 → ∃ t, exec (.ldB x) s = .next t ∧ FaultTaken .memoryBounds (encode (.ldB x)) s t)

/-- FX55 stores `V[0]` to `V[x]` at `I` to `I + x`, changes no other byte, and leaves `I`; with `I + x` outside memory
it faults and stores nothing (`P_LS_I = unchanged`, log entry 3). -/
def Obligations.StoreRegistersFromIndex : Prop :=
  ∀ (x : Reg) (s : State),
    (s.I.toNat + x.val < 4096 → ∃ t, exec (.storeRegs x) s = .next t ∧
      (∀ r : Reg, r ≤ x → t.byteAt (s.I.toNat + r.val) = s.getV r) ∧
      (∀ a, a < s.I.toNat ∨ s.I.toNat + x.val < a → t.byteAt a = s.byteAt a) ∧ SameBut [.mem] s t) ∧
    (4096 ≤ s.I.toNat + x.val →
      ∃ t, exec (.storeRegs x) s = .next t ∧ FaultTaken .memoryBounds (encode (.storeRegs x)) s t)

/-- FX65 loads `V[0]` to `V[x]` from `I` to `I + x`, changes no other register, and leaves `I`; with `I + x` outside
memory it faults and loads nothing (`P_LS_I = unchanged`, log entry 3). -/
def Obligations.LoadRegistersFromIndex : Prop :=
  ∀ (x : Reg) (s : State),
    (s.I.toNat + x.val < 4096 → ∃ t, exec (.loadRegs x) s = .next t ∧
      (∀ r : Reg, r ≤ x → t.getV r = s.byteAt (s.I.toNat + r.val)) ∧
      (∀ r : Reg, x < r → t.getV r = s.getV r) ∧ SameBut [.regs] s t) ∧
    (4096 ≤ s.I.toNat + x.val →
      ∃ t, exec (.loadRegs x) s = .next t ∧ FaultTaken .memoryBounds (encode (.loadRegs x)) s t)

/-! ## Events -/

/-- A tick takes one from each timer that is above 0 and changes nothing else; paused or halted it changes nothing.
The tone is on exactly while the sound timer is above 0. -/
def Obligations.TickCountsTimersDown : Prop :=
  ∀ s : State,
    (s.runState = .running → s.halt = .none → ∃ t, s.apply .tick = .next t ∧ t.DT.toNat = s.DT.toNat - 1 ∧
      t.ST.toNat = s.ST.toNat - 1 ∧ SameBut [.delay, .sound] s t ∧ (t.tone = true ↔ 1 < s.ST.toNat)) ∧
    (s.runState = .paused ∨ s.halt ≠ .none → s.apply .tick = .next s)

/-- Pause, resume and a key change write their own piece of state, in any state, and nothing else. -/
def Obligations.HostEventsWriteOnlyTheirOwn : Prop :=
  ∀ (s : State) (k : BitVec 16),
    (∃ t, s.apply .pause = .next t ∧ t.runState = .paused ∧ SameBut [.run] s t) ∧
    (∃ t, s.apply .resume = .next t ∧ t.runState = .running ∧ SameBut [.run] s t) ∧
    (∃ t, s.apply (.setKeys k) = .next t ∧ t.key = k ∧ SameBut [.keys] s t)

/-- Reset in any state: registers, `I`, stack, display, keypad, timers and record 0, `pc` 0x200, Running, not waiting;
memory holds the font, the ROM from 0x200 on where it fits, and 0 elsewhere; `halt` is 0, or 4 where the ROM has more
than 3584 bytes, and then no byte of it is copied. The count of draws goes on (log entry 6). The reset event does this
for every ROM its ports carry. -/
def Obligations.ResetInitialisesTheWholeState : Prop :=
  ∀ (s : State) (rom : List Byte), ∃ t, s.initialise rom = t ∧
    (∀ r : Rom, r.bytes = rom → s.apply (.reset r) = .next t) ∧ t.draws = s.draws ∧
    (∀ r, t.getV r = 0#8) ∧ t.I = 0#16 ∧ t.pc = 0x200#16 ∧ (∀ (k : Nat) (h : k < 12), t.stack[k]'h = 0#16) ∧
    t.sp = 0 ∧ (∀ col row, col < 64 → row < 32 → t.cell col row = false) ∧ t.key = 0#16 ∧ t.DT = 0#8 ∧ t.ST = 0#8 ∧
    t.runState = .running ∧ t.awaitingKey = false ∧ t.faultPc = 0#16 ∧ t.faultOp = 0#16 ∧
    (∀ a, a < 80 → hw.font[a]? = some (t.byteAt a)) ∧
    (∀ a, 80 ≤ a → a < 0x200 → t.byteAt a = 0#8) ∧
    (rom.length ≤ 3584 → t.halt = .none ∧ (∀ k (h : k < rom.length), t.byteAt (0x200 + k) = rom[k]'h) ∧
      ∀ a, 0x200 + rom.length ≤ a → t.byteAt a = 0#8) ∧
    (3584 < rom.length → t.halt = .romTooLarge ∧ ∀ a, 0x200 ≤ a → t.byteAt a = 0#8)

/-- The diagnostic event of a step: it names the instruction's address and word, and a step emits it exactly when it
runs a word outside the opcode map or a SYS word. -/
def Obligations.DiagnosticNamesTheUnrecognizedWord : Prop :=
  ∀ (s : State) (a op : Word), s.diagnostic = some (a, op) ↔
    s.runState = .running ∧ s.halt = .none ∧ s.Fetchable ∧ a = s.pc ∧ op = s.nextWord ∧
      (decodeWord op = none ∨ ∃ nnn, decodeWord op = some (.sys nnn))
end

