-- ==== Sys2Proof/Laws/Memory.lean ====
section
/-! SUPPORT. Memory: read after write, the canonical form and what keeps it, and the two primitives of R39 under this
hardware's `P_ADDR_OOB = fault`. -/

namespace Sys2Proof.Machine

variable {m : Memory} {a b lo : Nat} {v w : Byte}

/-! ## The background -/

theorem font_length : hw.font.length = 80 := by decide

/-- Outside the font memory starts as 0. -/
theorem background_eq_zero (h : 80 ≤ a) : background a = 0#8 := by
  unfold background
  rw [List.getD_eq_default _ _ (by rw [font_length]; exact h)]

/-- Inside the font memory starts as the font. -/
theorem font_getElem?_eq (h : a < 80) : hw.font[a]? = some (background a) := by
  have h' : a < hw.font.length := by rw [font_length]; exact h
  rw [List.getElem?_eq_getElem h', background, List.getD_eq_getElem _ _ h']

/-! ## Reading after writing -/

@[simp] theorem read_nil : Memory.read [] a = background a := rfl

theorem listed_put : Memory.listed (Memory.put m a v) b = if b = a then some v else Memory.listed m b := by
  induction m with
  | nil => simp only [Memory.put, Memory.listed]
  | cons c m ih =>
    obtain ⟨x, u⟩ := c
    simp only [Memory.put]
    split
    · simp only [Memory.listed]
    · split
      · next h => subst h; simp only [Memory.listed]; split <;> rfl
      · next h =>
        simp only [Memory.listed, ih]
        by_cases hb : b = x
        · subst hb; rw [if_pos rfl, if_neg (fun e => h e.symm), if_pos rfl]
        · rw [if_neg hb, if_neg hb]

theorem listed_drop : Memory.listed (Memory.drop m a) b = if b = a then none else Memory.listed m b := by
  induction m with
  | nil => simp [Memory.drop, Memory.listed]
  | cons c m ih =>
    obtain ⟨x, u⟩ := c
    simp only [Memory.drop] at ih ⊢
    by_cases hx : x = a
    · subst hx
      rw [List.filter_cons_of_neg (by simp), ih]
      simp only [Memory.listed]
      split <;> rfl
    · rw [List.filter_cons_of_pos (by simpa using hx)]
      simp only [Memory.listed, ih]
      by_cases hb : b = x
      · subst hb; rw [if_pos rfl, if_neg hx, if_pos rfl]
      · rw [if_neg hb, if_neg hb]

/-- A read after a write: the written byte at its address, the old byte everywhere else. -/
theorem read_write : Memory.read (Memory.write m a v) b = if b = a then v else Memory.read m b := by
  unfold Memory.write Memory.read
  split
  · next hv =>
    rw [listed_drop]
    by_cases hb : b = a
    · subst hb; simp [hv]
    · simp [hb]
  · rw [listed_put]
    by_cases hb : b = a
    · simp [hb]
    · simp [hb]

@[simp] theorem read_write_same : Memory.read (Memory.write m a v) a = v := by rw [read_write, if_pos rfl]

theorem read_write_other (h : b ≠ a) : Memory.read (Memory.write m a v) b = Memory.read m b := by
  rw [read_write, if_neg h]

/-! ## The canonical form -/

theorem wfFrom_cons : Memory.wfFrom lo ((a, v) :: m) = true ↔
    (lo ≤ a ∧ a < memSize ∧ v ≠ background a) ∧ Memory.wfFrom (a + 1) m = true := by
  simp only [Memory.wfFrom, Bool.and_eq_true, decide_eq_true_eq]
  tauto

theorem wfFrom_mono {lo' : Nat} (h : lo' ≤ lo) (hm : Memory.wfFrom lo m = true) : Memory.wfFrom lo' m = true := by
  cases m with
  | nil => rfl
  | cons c m =>
    obtain ⟨x, u⟩ := c
    rw [wfFrom_cons] at hm ⊢
    exact ⟨⟨h.trans hm.1.1, hm.1.2⟩, hm.2⟩

theorem wfFrom_put (ha : a < memSize) (hv : v ≠ background a) (hlo : lo ≤ a) (hm : Memory.wfFrom lo m = true) :
    Memory.wfFrom lo (Memory.put m a v) = true := by
  induction m generalizing lo with
  | nil => simp only [Memory.put]; rw [wfFrom_cons]; exact ⟨⟨hlo, ha, hv⟩, rfl⟩
  | cons c m ih =>
    obtain ⟨x, u⟩ := c
    rw [wfFrom_cons] at hm
    simp only [Memory.put]
    split
    · next h => rw [wfFrom_cons, wfFrom_cons]; exact ⟨⟨hlo, ha, hv⟩, ⟨h, hm.1.2⟩, hm.2⟩
    · split
      · next h => subst h; rw [wfFrom_cons]; exact ⟨⟨hlo, ha, hv⟩, hm.2⟩
      · rw [wfFrom_cons]; exact ⟨hm.1, ih (by omega) hm.2⟩

theorem wfFrom_drop (hm : Memory.wfFrom lo m = true) : Memory.wfFrom lo (Memory.drop m a) = true := by
  induction m generalizing lo with
  | nil => rfl
  | cons c m ih =>
    obtain ⟨x, u⟩ := c
    rw [wfFrom_cons] at hm
    simp only [Memory.drop] at ih ⊢
    by_cases hx : x = a
    · rw [List.filter_cons_of_neg (by simpa using hx)]
      exact wfFrom_mono (by omega) (ih hm.2)
    · rw [List.filter_cons_of_pos (by simpa using hx), wfFrom_cons]
      exact ⟨hm.1, ih hm.2⟩

/-- Writing a byte inside memory keeps the canonical form. -/
theorem wf_write (ha : a < memSize) (hm : Memory.wf m = true) : Memory.wf (Memory.write m a v) = true := by
  unfold Memory.wf at hm ⊢
  unfold Memory.write
  split
  · exact wfFrom_drop hm
  · next hv => exact wfFrom_put ha hv (Nat.zero_le _) hm

theorem listed_eq_none_of_lt (hm : Memory.wfFrom lo m = true) (h : b < lo) : Memory.listed m b = none := by
  induction m generalizing lo with
  | nil => rfl
  | cons c m ih =>
    obtain ⟨x, u⟩ := c
    rw [wfFrom_cons] at hm
    simp only [Memory.listed]
    rw [if_neg (by omega)]
    exact ih hm.2 (by omega)

theorem read_eq_background_of_lt (hm : Memory.wfFrom lo m = true) (h : b < lo) : Memory.read m b = background b := by
  rw [Memory.read, listed_eq_none_of_lt hm h, Option.getD_none]

theorem read_cons : Memory.read ((a, v) :: m) b = if b = a then v else Memory.read m b := by
  unfold Memory.read
  simp only [Memory.listed]
  split <;> rfl

/-- Canonical memories that read the same are the same list. -/
theorem wfFrom_ext {m' : Memory} (hm : Memory.wfFrom lo m = true) (hm' : Memory.wfFrom lo m' = true)
    (h : ∀ b, Memory.read m b = Memory.read m' b) : m = m' := by
  induction m generalizing lo m' with
  | nil =>
    cases m' with
    | nil => rfl
    | cons c m' =>
      obtain ⟨x, u⟩ := c
      rw [wfFrom_cons] at hm'
      have := h x
      rw [read_nil, read_cons, if_pos rfl] at this
      exact absurd this.symm hm'.1.2.2
  | cons c m ih =>
    obtain ⟨x, u⟩ := c
    rw [wfFrom_cons] at hm
    cases m' with
    | nil =>
      have := h x
      rw [read_nil, read_cons, if_pos rfl] at this
      exact absurd this hm.1.2.2
    | cons c' m' =>
      obtain ⟨x', u'⟩ := c'
      rw [wfFrom_cons] at hm'
      have hx : x = x' := by
        rcases Nat.lt_trichotomy x x' with hlt | heq | hgt
        · have := h x
          rw [read_cons, if_pos rfl, read_cons, if_neg (by omega), read_eq_background_of_lt hm'.2 (by omega)] at this
          exact absurd this hm.1.2.2
        · exact heq
        · have := h x'
          rw [read_cons, if_neg (by omega), read_eq_background_of_lt hm.2 (by omega), read_cons, if_pos rfl] at this
          exact absurd this.symm hm'.1.2.2
      subst hx
      have hu : u = u' := by
        have := h x
        rwa [read_cons, if_pos rfl, read_cons, if_pos rfl] at this
      subst hu
      rw [ih hm.2 hm'.2 (fun b => ?_)]
      by_cases hb : b = x
      · subst hb
        rw [read_eq_background_of_lt hm.2 (by omega), read_eq_background_of_lt hm'.2 (by omega)]
      · have := h b
        rwa [read_cons, if_neg hb, read_cons, if_neg hb] at this

/-! ## A byte string laid down at once -/

theorem wfFrom_cellsFrom {vs : List Byte} (h : a + vs.length ≤ memSize) : Memory.wfFrom a (cellsFrom a vs) = true := by
  induction vs generalizing a with
  | nil => rfl
  | cons u vs ih =>
    simp only [List.length_cons] at h
    simp only [cellsFrom]
    split
    · exact wfFrom_mono (Nat.le_succ a) (ih (by omega))
    · next hu => rw [wfFrom_cons]; exact ⟨⟨le_refl a, by omega, hu⟩, ih (by omega)⟩

theorem listed_cellsFrom_lt {vs : List Byte} (h : b < a) : Memory.listed (cellsFrom a vs) b = none := by
  induction vs generalizing a with
  | nil => rfl
  | cons u vs ih =>
    simp only [cellsFrom]
    split
    · exact ih (by omega)
    · simp only [Memory.listed]; rw [if_neg (by omega)]; exact ih (by omega)

theorem read_cellsFrom_lt {vs : List Byte} (h : b < a) : Memory.read (cellsFrom a vs) b = background b := by
  rw [Memory.read, listed_cellsFrom_lt h, Option.getD_none]

/-- What a laid byte string reads as: its bytes from `a` on. -/
theorem read_cellsFrom {vs : List Byte} (k : Nat) (h : k < vs.length) : Memory.read (cellsFrom a vs) (a + k) = vs[k] := by
  induction vs generalizing a k with
  | nil => exact absurd h (Nat.not_lt_zero k)
  | cons u vs ih =>
    simp only [cellsFrom]
    cases k with
    | zero =>
      split
      · next hu =>
        show Memory.read (cellsFrom (a + 1) vs) a = u
        rw [read_cellsFrom_lt (by omega)]; exact hu.symm
      · rw [read_cons]; simp
    | succ k =>
      have hk : k < vs.length := by simpa using h
      have e : a + (k + 1) = a + 1 + k := by omega
      split
      · rw [e, ih k hk]; simp
      · rw [read_cons, if_neg (by omega), e, ih k hk]; simp

/-- Past its end a laid byte string leaves the background. -/
theorem read_cellsFrom_ge {vs : List Byte} (h : a + vs.length ≤ b) : Memory.read (cellsFrom a vs) b = background b := by
  induction vs generalizing a with
  | nil => rfl
  | cons u vs ih =>
    simp only [List.length_cons] at h
    simp only [cellsFrom]
    split
    · exact ih (by omega)
    · rw [read_cons, if_neg (by omega)]; exact ih (by omega)

/-! ## The primitives of R39 on this hardware -/

@[simp] theorem hw_addrOob : hw.addrOob = .fault := rfl
@[simp] theorem hw_oddPc : hw.oddPc = .fetch := rfl
@[simp] theorem hw_memOps : hw.memOps = .standard := rfl
@[simp] theorem hw_lsI : hw.lsI = .unchanged := rfl
@[simp] theorem hw_flagOrder : hw.flagOrder = .textOrder := rfl

theorem memRead_fault : memRead .fault m a = if a < 4096 then some (Memory.read m a) else none := by
  unfold memRead resolve memSize
  split <;> rfl

theorem memWrite_fault : memWrite .fault m a v = if a < 4096 then some (Memory.write m a v) else none := by
  unfold memWrite resolve memSize
  split <;> rfl

/-- The address an access goes to lies in memory. -/
theorem resolve_lt {p : AddrOob} (h : resolve p a = some b) : b < memSize := by
  unfold resolve at h
  split at h
  · next ha => cases h; exact ha
  · cases p with
    | fault => exact absurd h (by simp)
    | wrap12 => simp only [Option.some.injEq] at h; subst h; exact Nat.mod_lt _ (by decide)

/-- A write through the primitive keeps the canonical form, under either value of `P_ADDR_OOB`. -/
theorem wf_memWrite {p : AddrOob} {m' : Memory} (h : memWrite p m a v = some m') (hm : Memory.wf m = true) :
    Memory.wf m' = true := by
  unfold memWrite at h
  cases hr : resolve p a with
  | none => rw [hr] at h; exact absurd h (by simp)
  | some x =>
    rw [hr] at h
    simp only [Option.map_some, Option.some.injEq] at h
    subst h
    exact wf_write (resolve_lt hr) hm

end Sys2Proof.Machine
end

