-- ==== Sys2Proof/Laws/State.lean ====
section
/-! SUPPORT. One lemma per field per update of the state, so that no later proof unfolds a record update; and what
each update does to a register, a cell and a byte. -/

namespace Sys2Proof.Machine

variable (s : State)

/-! ## Register updates -/

@[simp] theorem State.setV_getV_same (x : Reg) (v : Byte) : (s.setV x v).getV x = v := by
  show (s.V.set x.val v x.isLt)[x.val] = v
  exact Vector.getElem_set_self _

theorem State.setV_getV (x r : Reg) (v : Byte) : (s.setV x v).getV r = if r = x then v else s.getV r := by
  by_cases h : r = x
  · subst h; simp
  · have : x.val ≠ r.val := fun e => h (Fin.ext e.symm)
    simp only [State.setV, State.getV, h, if_false]
    show (s.V.set x.val v x.isLt)[r.val] = s.V[r.val]
    exact Vector.getElem_set_ne _ _ this

theorem State.setV_getV_other {s : State} {x r : Reg} (h : r ≠ x) (v : Byte) : (s.setV x v).getV r = s.getV r := by
  rw [State.setV_getV, if_neg h]

@[simp] theorem State.setV_I (x : Reg) (v : Byte) : (s.setV x v).I = s.I := rfl
@[simp] theorem State.setV_pc (x : Reg) (v : Byte) : (s.setV x v).pc = s.pc := rfl
@[simp] theorem State.setV_stack (x : Reg) (v : Byte) : (s.setV x v).stack = s.stack := rfl
@[simp] theorem State.setV_sp (x : Reg) (v : Byte) : (s.setV x v).sp = s.sp := rfl
@[simp] theorem State.setV_disp (x : Reg) (v : Byte) : (s.setV x v).disp = s.disp := rfl
@[simp] theorem State.setV_key (x : Reg) (v : Byte) : (s.setV x v).key = s.key := rfl
@[simp] theorem State.setV_DT (x : Reg) (v : Byte) : (s.setV x v).DT = s.DT := rfl
@[simp] theorem State.setV_ST (x : Reg) (v : Byte) : (s.setV x v).ST = s.ST := rfl
@[simp] theorem State.setV_mem (x : Reg) (v : Byte) : (s.setV x v).mem = s.mem := rfl
@[simp] theorem State.setV_runState (x : Reg) (v : Byte) : (s.setV x v).runState = s.runState := rfl
@[simp] theorem State.setV_awaitingKey (x : Reg) (v : Byte) : (s.setV x v).awaitingKey = s.awaitingKey := rfl
@[simp] theorem State.setV_halt (x : Reg) (v : Byte) : (s.setV x v).halt = s.halt := rfl
@[simp] theorem State.setV_faultPc (x : Reg) (v : Byte) : (s.setV x v).faultPc = s.faultPc := rfl
@[simp] theorem State.setV_faultOp (x : Reg) (v : Byte) : (s.setV x v).faultOp = s.faultOp := rfl
@[simp] theorem State.setV_draws (x : Reg) (v : Byte) : (s.setV x v).draws = s.draws := rfl

/-! ## `setRegs` -/

@[simp] theorem State.setRegs_V (V : Vector Byte 16) : (s.setRegs V).V = V := rfl
@[simp] theorem State.setRegs_I (V : Vector Byte 16) : (s.setRegs V).I = s.I := rfl
@[simp] theorem State.setRegs_pc (V : Vector Byte 16) : (s.setRegs V).pc = s.pc := rfl
@[simp] theorem State.setRegs_stack (V : Vector Byte 16) : (s.setRegs V).stack = s.stack := rfl
@[simp] theorem State.setRegs_sp (V : Vector Byte 16) : (s.setRegs V).sp = s.sp := rfl
@[simp] theorem State.setRegs_disp (V : Vector Byte 16) : (s.setRegs V).disp = s.disp := rfl
@[simp] theorem State.setRegs_key (V : Vector Byte 16) : (s.setRegs V).key = s.key := rfl
@[simp] theorem State.setRegs_DT (V : Vector Byte 16) : (s.setRegs V).DT = s.DT := rfl
@[simp] theorem State.setRegs_ST (V : Vector Byte 16) : (s.setRegs V).ST = s.ST := rfl
@[simp] theorem State.setRegs_mem (V : Vector Byte 16) : (s.setRegs V).mem = s.mem := rfl
@[simp] theorem State.setRegs_runState (V : Vector Byte 16) : (s.setRegs V).runState = s.runState := rfl
@[simp] theorem State.setRegs_awaitingKey (V : Vector Byte 16) : (s.setRegs V).awaitingKey = s.awaitingKey := rfl
@[simp] theorem State.setRegs_halt (V : Vector Byte 16) : (s.setRegs V).halt = s.halt := rfl
@[simp] theorem State.setRegs_faultPc (V : Vector Byte 16) : (s.setRegs V).faultPc = s.faultPc := rfl
@[simp] theorem State.setRegs_faultOp (V : Vector Byte 16) : (s.setRegs V).faultOp = s.faultOp := rfl
@[simp] theorem State.setRegs_draws (V : Vector Byte 16) : (s.setRegs V).draws = s.draws := rfl
@[simp] theorem State.setRegs_byteAt (V : Vector Byte 16) (a : Nat) : (s.setRegs V).byteAt a = s.byteAt a := rfl
@[simp] theorem State.setRegs_cell (V : Vector Byte 16) (col row : Nat) : (s.setRegs V).cell col row = s.cell col row := rfl

/-! ## `setI` -/

@[simp] theorem State.setI_V (v : Word) : (s.setI v).V = s.V := rfl
@[simp] theorem State.setI_I (v : Word) : (s.setI v).I = v := rfl
@[simp] theorem State.setI_pc (v : Word) : (s.setI v).pc = s.pc := rfl
@[simp] theorem State.setI_stack (v : Word) : (s.setI v).stack = s.stack := rfl
@[simp] theorem State.setI_sp (v : Word) : (s.setI v).sp = s.sp := rfl
@[simp] theorem State.setI_disp (v : Word) : (s.setI v).disp = s.disp := rfl
@[simp] theorem State.setI_key (v : Word) : (s.setI v).key = s.key := rfl
@[simp] theorem State.setI_DT (v : Word) : (s.setI v).DT = s.DT := rfl
@[simp] theorem State.setI_ST (v : Word) : (s.setI v).ST = s.ST := rfl
@[simp] theorem State.setI_mem (v : Word) : (s.setI v).mem = s.mem := rfl
@[simp] theorem State.setI_runState (v : Word) : (s.setI v).runState = s.runState := rfl
@[simp] theorem State.setI_awaitingKey (v : Word) : (s.setI v).awaitingKey = s.awaitingKey := rfl
@[simp] theorem State.setI_halt (v : Word) : (s.setI v).halt = s.halt := rfl
@[simp] theorem State.setI_faultPc (v : Word) : (s.setI v).faultPc = s.faultPc := rfl
@[simp] theorem State.setI_faultOp (v : Word) : (s.setI v).faultOp = s.faultOp := rfl
@[simp] theorem State.setI_draws (v : Word) : (s.setI v).draws = s.draws := rfl
@[simp] theorem State.setI_getV (v : Word) (r : Reg) : (s.setI v).getV r = s.getV r := rfl
@[simp] theorem State.setI_byteAt (v : Word) (a : Nat) : (s.setI v).byteAt a = s.byteAt a := rfl
@[simp] theorem State.setI_cell (v : Word) (col row : Nat) : (s.setI v).cell col row = s.cell col row := rfl

/-! ## `setPc` -/

@[simp] theorem State.setPc_V (v : Word) : (s.setPc v).V = s.V := rfl
@[simp] theorem State.setPc_I (v : Word) : (s.setPc v).I = s.I := rfl
@[simp] theorem State.setPc_pc (v : Word) : (s.setPc v).pc = v := rfl
@[simp] theorem State.setPc_stack (v : Word) : (s.setPc v).stack = s.stack := rfl
@[simp] theorem State.setPc_sp (v : Word) : (s.setPc v).sp = s.sp := rfl
@[simp] theorem State.setPc_disp (v : Word) : (s.setPc v).disp = s.disp := rfl
@[simp] theorem State.setPc_key (v : Word) : (s.setPc v).key = s.key := rfl
@[simp] theorem State.setPc_DT (v : Word) : (s.setPc v).DT = s.DT := rfl
@[simp] theorem State.setPc_ST (v : Word) : (s.setPc v).ST = s.ST := rfl
@[simp] theorem State.setPc_mem (v : Word) : (s.setPc v).mem = s.mem := rfl
@[simp] theorem State.setPc_runState (v : Word) : (s.setPc v).runState = s.runState := rfl
@[simp] theorem State.setPc_awaitingKey (v : Word) : (s.setPc v).awaitingKey = s.awaitingKey := rfl
@[simp] theorem State.setPc_halt (v : Word) : (s.setPc v).halt = s.halt := rfl
@[simp] theorem State.setPc_faultPc (v : Word) : (s.setPc v).faultPc = s.faultPc := rfl
@[simp] theorem State.setPc_faultOp (v : Word) : (s.setPc v).faultOp = s.faultOp := rfl
@[simp] theorem State.setPc_draws (v : Word) : (s.setPc v).draws = s.draws := rfl
@[simp] theorem State.setPc_getV (v : Word) (r : Reg) : (s.setPc v).getV r = s.getV r := rfl
@[simp] theorem State.setPc_byteAt (v : Word) (a : Nat) : (s.setPc v).byteAt a = s.byteAt a := rfl
@[simp] theorem State.setPc_cell (v : Word) (col row : Nat) : (s.setPc v).cell col row = s.cell col row := rfl

/-! ## `setDT` -/

@[simp] theorem State.setDT_V (v : Byte) : (s.setDT v).V = s.V := rfl
@[simp] theorem State.setDT_I (v : Byte) : (s.setDT v).I = s.I := rfl
@[simp] theorem State.setDT_pc (v : Byte) : (s.setDT v).pc = s.pc := rfl
@[simp] theorem State.setDT_stack (v : Byte) : (s.setDT v).stack = s.stack := rfl
@[simp] theorem State.setDT_sp (v : Byte) : (s.setDT v).sp = s.sp := rfl
@[simp] theorem State.setDT_disp (v : Byte) : (s.setDT v).disp = s.disp := rfl
@[simp] theorem State.setDT_key (v : Byte) : (s.setDT v).key = s.key := rfl
@[simp] theorem State.setDT_DT (v : Byte) : (s.setDT v).DT = v := rfl
@[simp] theorem State.setDT_ST (v : Byte) : (s.setDT v).ST = s.ST := rfl
@[simp] theorem State.setDT_mem (v : Byte) : (s.setDT v).mem = s.mem := rfl
@[simp] theorem State.setDT_runState (v : Byte) : (s.setDT v).runState = s.runState := rfl
@[simp] theorem State.setDT_awaitingKey (v : Byte) : (s.setDT v).awaitingKey = s.awaitingKey := rfl
@[simp] theorem State.setDT_halt (v : Byte) : (s.setDT v).halt = s.halt := rfl
@[simp] theorem State.setDT_faultPc (v : Byte) : (s.setDT v).faultPc = s.faultPc := rfl
@[simp] theorem State.setDT_faultOp (v : Byte) : (s.setDT v).faultOp = s.faultOp := rfl
@[simp] theorem State.setDT_draws (v : Byte) : (s.setDT v).draws = s.draws := rfl
@[simp] theorem State.setDT_getV (v : Byte) (r : Reg) : (s.setDT v).getV r = s.getV r := rfl
@[simp] theorem State.setDT_byteAt (v : Byte) (a : Nat) : (s.setDT v).byteAt a = s.byteAt a := rfl
@[simp] theorem State.setDT_cell (v : Byte) (col row : Nat) : (s.setDT v).cell col row = s.cell col row := rfl

/-! ## `setST` -/

@[simp] theorem State.setST_V (v : Byte) : (s.setST v).V = s.V := rfl
@[simp] theorem State.setST_I (v : Byte) : (s.setST v).I = s.I := rfl
@[simp] theorem State.setST_pc (v : Byte) : (s.setST v).pc = s.pc := rfl
@[simp] theorem State.setST_stack (v : Byte) : (s.setST v).stack = s.stack := rfl
@[simp] theorem State.setST_sp (v : Byte) : (s.setST v).sp = s.sp := rfl
@[simp] theorem State.setST_disp (v : Byte) : (s.setST v).disp = s.disp := rfl
@[simp] theorem State.setST_key (v : Byte) : (s.setST v).key = s.key := rfl
@[simp] theorem State.setST_DT (v : Byte) : (s.setST v).DT = s.DT := rfl
@[simp] theorem State.setST_ST (v : Byte) : (s.setST v).ST = v := rfl
@[simp] theorem State.setST_mem (v : Byte) : (s.setST v).mem = s.mem := rfl
@[simp] theorem State.setST_runState (v : Byte) : (s.setST v).runState = s.runState := rfl
@[simp] theorem State.setST_awaitingKey (v : Byte) : (s.setST v).awaitingKey = s.awaitingKey := rfl
@[simp] theorem State.setST_halt (v : Byte) : (s.setST v).halt = s.halt := rfl
@[simp] theorem State.setST_faultPc (v : Byte) : (s.setST v).faultPc = s.faultPc := rfl
@[simp] theorem State.setST_faultOp (v : Byte) : (s.setST v).faultOp = s.faultOp := rfl
@[simp] theorem State.setST_draws (v : Byte) : (s.setST v).draws = s.draws := rfl
@[simp] theorem State.setST_getV (v : Byte) (r : Reg) : (s.setST v).getV r = s.getV r := rfl
@[simp] theorem State.setST_byteAt (v : Byte) (a : Nat) : (s.setST v).byteAt a = s.byteAt a := rfl
@[simp] theorem State.setST_cell (v : Byte) (col row : Nat) : (s.setST v).cell col row = s.cell col row := rfl

/-! ## `setDisp` -/

@[simp] theorem State.setDisp_V (d : BitVec 2048) : (s.setDisp d).V = s.V := rfl
@[simp] theorem State.setDisp_I (d : BitVec 2048) : (s.setDisp d).I = s.I := rfl
@[simp] theorem State.setDisp_pc (d : BitVec 2048) : (s.setDisp d).pc = s.pc := rfl
@[simp] theorem State.setDisp_stack (d : BitVec 2048) : (s.setDisp d).stack = s.stack := rfl
@[simp] theorem State.setDisp_sp (d : BitVec 2048) : (s.setDisp d).sp = s.sp := rfl
@[simp] theorem State.setDisp_disp (d : BitVec 2048) : (s.setDisp d).disp = d := rfl
@[simp] theorem State.setDisp_key (d : BitVec 2048) : (s.setDisp d).key = s.key := rfl
@[simp] theorem State.setDisp_DT (d : BitVec 2048) : (s.setDisp d).DT = s.DT := rfl
@[simp] theorem State.setDisp_ST (d : BitVec 2048) : (s.setDisp d).ST = s.ST := rfl
@[simp] theorem State.setDisp_mem (d : BitVec 2048) : (s.setDisp d).mem = s.mem := rfl
@[simp] theorem State.setDisp_runState (d : BitVec 2048) : (s.setDisp d).runState = s.runState := rfl
@[simp] theorem State.setDisp_awaitingKey (d : BitVec 2048) : (s.setDisp d).awaitingKey = s.awaitingKey := rfl
@[simp] theorem State.setDisp_halt (d : BitVec 2048) : (s.setDisp d).halt = s.halt := rfl
@[simp] theorem State.setDisp_faultPc (d : BitVec 2048) : (s.setDisp d).faultPc = s.faultPc := rfl
@[simp] theorem State.setDisp_faultOp (d : BitVec 2048) : (s.setDisp d).faultOp = s.faultOp := rfl
@[simp] theorem State.setDisp_draws (d : BitVec 2048) : (s.setDisp d).draws = s.draws := rfl
@[simp] theorem State.setDisp_getV (d : BitVec 2048) (r : Reg) : (s.setDisp d).getV r = s.getV r := rfl
@[simp] theorem State.setDisp_byteAt (d : BitVec 2048) (a : Nat) : (s.setDisp d).byteAt a = s.byteAt a := rfl

/-! ## `setMem` -/

@[simp] theorem State.setMem_V (m : Memory) : (s.setMem m).V = s.V := rfl
@[simp] theorem State.setMem_I (m : Memory) : (s.setMem m).I = s.I := rfl
@[simp] theorem State.setMem_pc (m : Memory) : (s.setMem m).pc = s.pc := rfl
@[simp] theorem State.setMem_stack (m : Memory) : (s.setMem m).stack = s.stack := rfl
@[simp] theorem State.setMem_sp (m : Memory) : (s.setMem m).sp = s.sp := rfl
@[simp] theorem State.setMem_disp (m : Memory) : (s.setMem m).disp = s.disp := rfl
@[simp] theorem State.setMem_key (m : Memory) : (s.setMem m).key = s.key := rfl
@[simp] theorem State.setMem_DT (m : Memory) : (s.setMem m).DT = s.DT := rfl
@[simp] theorem State.setMem_ST (m : Memory) : (s.setMem m).ST = s.ST := rfl
@[simp] theorem State.setMem_mem (m : Memory) : (s.setMem m).mem = m := rfl
@[simp] theorem State.setMem_runState (m : Memory) : (s.setMem m).runState = s.runState := rfl
@[simp] theorem State.setMem_awaitingKey (m : Memory) : (s.setMem m).awaitingKey = s.awaitingKey := rfl
@[simp] theorem State.setMem_halt (m : Memory) : (s.setMem m).halt = s.halt := rfl
@[simp] theorem State.setMem_faultPc (m : Memory) : (s.setMem m).faultPc = s.faultPc := rfl
@[simp] theorem State.setMem_faultOp (m : Memory) : (s.setMem m).faultOp = s.faultOp := rfl
@[simp] theorem State.setMem_draws (m : Memory) : (s.setMem m).draws = s.draws := rfl
@[simp] theorem State.setMem_getV (m : Memory) (r : Reg) : (s.setMem m).getV r = s.getV r := rfl
@[simp] theorem State.setMem_cell (m : Memory) (col row : Nat) : (s.setMem m).cell col row = s.cell col row := rfl

/-! ## `setKey` -/

@[simp] theorem State.setKey_V (k : BitVec 16) : (s.setKey k).V = s.V := rfl
@[simp] theorem State.setKey_I (k : BitVec 16) : (s.setKey k).I = s.I := rfl
@[simp] theorem State.setKey_pc (k : BitVec 16) : (s.setKey k).pc = s.pc := rfl
@[simp] theorem State.setKey_stack (k : BitVec 16) : (s.setKey k).stack = s.stack := rfl
@[simp] theorem State.setKey_sp (k : BitVec 16) : (s.setKey k).sp = s.sp := rfl
@[simp] theorem State.setKey_disp (k : BitVec 16) : (s.setKey k).disp = s.disp := rfl
@[simp] theorem State.setKey_key (k : BitVec 16) : (s.setKey k).key = k := rfl
@[simp] theorem State.setKey_DT (k : BitVec 16) : (s.setKey k).DT = s.DT := rfl
@[simp] theorem State.setKey_ST (k : BitVec 16) : (s.setKey k).ST = s.ST := rfl
@[simp] theorem State.setKey_mem (k : BitVec 16) : (s.setKey k).mem = s.mem := rfl
@[simp] theorem State.setKey_runState (k : BitVec 16) : (s.setKey k).runState = s.runState := rfl
@[simp] theorem State.setKey_awaitingKey (k : BitVec 16) : (s.setKey k).awaitingKey = s.awaitingKey := rfl
@[simp] theorem State.setKey_halt (k : BitVec 16) : (s.setKey k).halt = s.halt := rfl
@[simp] theorem State.setKey_faultPc (k : BitVec 16) : (s.setKey k).faultPc = s.faultPc := rfl
@[simp] theorem State.setKey_faultOp (k : BitVec 16) : (s.setKey k).faultOp = s.faultOp := rfl
@[simp] theorem State.setKey_draws (k : BitVec 16) : (s.setKey k).draws = s.draws := rfl
@[simp] theorem State.setKey_getV (k : BitVec 16) (r : Reg) : (s.setKey k).getV r = s.getV r := rfl
@[simp] theorem State.setKey_byteAt (k : BitVec 16) (a : Nat) : (s.setKey k).byteAt a = s.byteAt a := rfl
@[simp] theorem State.setKey_cell (k : BitVec 16) (col row : Nat) : (s.setKey k).cell col row = s.cell col row := rfl

/-! ## `setAwaiting` -/

@[simp] theorem State.setAwaiting_V (b : Bool) : (s.setAwaiting b).V = s.V := rfl
@[simp] theorem State.setAwaiting_I (b : Bool) : (s.setAwaiting b).I = s.I := rfl
@[simp] theorem State.setAwaiting_pc (b : Bool) : (s.setAwaiting b).pc = s.pc := rfl
@[simp] theorem State.setAwaiting_stack (b : Bool) : (s.setAwaiting b).stack = s.stack := rfl
@[simp] theorem State.setAwaiting_sp (b : Bool) : (s.setAwaiting b).sp = s.sp := rfl
@[simp] theorem State.setAwaiting_disp (b : Bool) : (s.setAwaiting b).disp = s.disp := rfl
@[simp] theorem State.setAwaiting_key (b : Bool) : (s.setAwaiting b).key = s.key := rfl
@[simp] theorem State.setAwaiting_DT (b : Bool) : (s.setAwaiting b).DT = s.DT := rfl
@[simp] theorem State.setAwaiting_ST (b : Bool) : (s.setAwaiting b).ST = s.ST := rfl
@[simp] theorem State.setAwaiting_mem (b : Bool) : (s.setAwaiting b).mem = s.mem := rfl
@[simp] theorem State.setAwaiting_runState (b : Bool) : (s.setAwaiting b).runState = s.runState := rfl
@[simp] theorem State.setAwaiting_awaitingKey (b : Bool) : (s.setAwaiting b).awaitingKey = b := rfl
@[simp] theorem State.setAwaiting_halt (b : Bool) : (s.setAwaiting b).halt = s.halt := rfl
@[simp] theorem State.setAwaiting_faultPc (b : Bool) : (s.setAwaiting b).faultPc = s.faultPc := rfl
@[simp] theorem State.setAwaiting_faultOp (b : Bool) : (s.setAwaiting b).faultOp = s.faultOp := rfl
@[simp] theorem State.setAwaiting_draws (b : Bool) : (s.setAwaiting b).draws = s.draws := rfl
@[simp] theorem State.setAwaiting_getV (b : Bool) (r : Reg) : (s.setAwaiting b).getV r = s.getV r := rfl
@[simp] theorem State.setAwaiting_byteAt (b : Bool) (a : Nat) : (s.setAwaiting b).byteAt a = s.byteAt a := rfl
@[simp] theorem State.setAwaiting_cell (b : Bool) (col row : Nat) : (s.setAwaiting b).cell col row = s.cell col row := rfl

/-! ## `setRunState` -/

@[simp] theorem State.setRunState_V (q : RunState) : (s.setRunState q).V = s.V := rfl
@[simp] theorem State.setRunState_I (q : RunState) : (s.setRunState q).I = s.I := rfl
@[simp] theorem State.setRunState_pc (q : RunState) : (s.setRunState q).pc = s.pc := rfl
@[simp] theorem State.setRunState_stack (q : RunState) : (s.setRunState q).stack = s.stack := rfl
@[simp] theorem State.setRunState_sp (q : RunState) : (s.setRunState q).sp = s.sp := rfl
@[simp] theorem State.setRunState_disp (q : RunState) : (s.setRunState q).disp = s.disp := rfl
@[simp] theorem State.setRunState_key (q : RunState) : (s.setRunState q).key = s.key := rfl
@[simp] theorem State.setRunState_DT (q : RunState) : (s.setRunState q).DT = s.DT := rfl
@[simp] theorem State.setRunState_ST (q : RunState) : (s.setRunState q).ST = s.ST := rfl
@[simp] theorem State.setRunState_mem (q : RunState) : (s.setRunState q).mem = s.mem := rfl
@[simp] theorem State.setRunState_runState (q : RunState) : (s.setRunState q).runState = q := rfl
@[simp] theorem State.setRunState_awaitingKey (q : RunState) : (s.setRunState q).awaitingKey = s.awaitingKey := rfl
@[simp] theorem State.setRunState_halt (q : RunState) : (s.setRunState q).halt = s.halt := rfl
@[simp] theorem State.setRunState_faultPc (q : RunState) : (s.setRunState q).faultPc = s.faultPc := rfl
@[simp] theorem State.setRunState_faultOp (q : RunState) : (s.setRunState q).faultOp = s.faultOp := rfl
@[simp] theorem State.setRunState_draws (q : RunState) : (s.setRunState q).draws = s.draws := rfl
@[simp] theorem State.setRunState_getV (q : RunState) (r : Reg) : (s.setRunState q).getV r = s.getV r := rfl
@[simp] theorem State.setRunState_byteAt (q : RunState) (a : Nat) : (s.setRunState q).byteAt a = s.byteAt a := rfl
@[simp] theorem State.setRunState_cell (q : RunState) (col row : Nat) : (s.setRunState q).cell col row = s.cell col row := rfl

/-! ## `countDraw` -/

@[simp] theorem State.countDraw_V : s.countDraw.V = s.V := rfl
@[simp] theorem State.countDraw_I : s.countDraw.I = s.I := rfl
@[simp] theorem State.countDraw_pc : s.countDraw.pc = s.pc := rfl
@[simp] theorem State.countDraw_stack : s.countDraw.stack = s.stack := rfl
@[simp] theorem State.countDraw_sp : s.countDraw.sp = s.sp := rfl
@[simp] theorem State.countDraw_disp : s.countDraw.disp = s.disp := rfl
@[simp] theorem State.countDraw_key : s.countDraw.key = s.key := rfl
@[simp] theorem State.countDraw_DT : s.countDraw.DT = s.DT := rfl
@[simp] theorem State.countDraw_ST : s.countDraw.ST = s.ST := rfl
@[simp] theorem State.countDraw_mem : s.countDraw.mem = s.mem := rfl
@[simp] theorem State.countDraw_runState : s.countDraw.runState = s.runState := rfl
@[simp] theorem State.countDraw_awaitingKey : s.countDraw.awaitingKey = s.awaitingKey := rfl
@[simp] theorem State.countDraw_halt : s.countDraw.halt = s.halt := rfl
@[simp] theorem State.countDraw_faultPc : s.countDraw.faultPc = s.faultPc := rfl
@[simp] theorem State.countDraw_faultOp : s.countDraw.faultOp = s.faultOp := rfl
@[simp] theorem State.countDraw_draws : s.countDraw.draws = s.draws + 1 := rfl
@[simp] theorem State.countDraw_getV (r : Reg) : s.countDraw.getV r = s.getV r := rfl
@[simp] theorem State.countDraw_byteAt (a : Nat) : s.countDraw.byteAt a = s.byteAt a := rfl
@[simp] theorem State.countDraw_cell (col row : Nat) : s.countDraw.cell col row = s.cell col row := rfl

/-! ## `advance` -/

@[simp] theorem State.advance_V : s.advance.V = s.V := rfl
@[simp] theorem State.advance_I : s.advance.I = s.I := rfl
@[simp] theorem State.advance_pc : s.advance.pc = s.pc + 2#16 := rfl
@[simp] theorem State.advance_stack : s.advance.stack = s.stack := rfl
@[simp] theorem State.advance_sp : s.advance.sp = s.sp := rfl
@[simp] theorem State.advance_disp : s.advance.disp = s.disp := rfl
@[simp] theorem State.advance_key : s.advance.key = s.key := rfl
@[simp] theorem State.advance_DT : s.advance.DT = s.DT := rfl
@[simp] theorem State.advance_ST : s.advance.ST = s.ST := rfl
@[simp] theorem State.advance_mem : s.advance.mem = s.mem := rfl
@[simp] theorem State.advance_runState : s.advance.runState = s.runState := rfl
@[simp] theorem State.advance_awaitingKey : s.advance.awaitingKey = s.awaitingKey := rfl
@[simp] theorem State.advance_halt : s.advance.halt = s.halt := rfl
@[simp] theorem State.advance_faultPc : s.advance.faultPc = s.faultPc := rfl
@[simp] theorem State.advance_faultOp : s.advance.faultOp = s.faultOp := rfl
@[simp] theorem State.advance_draws : s.advance.draws = s.draws := rfl
@[simp] theorem State.advance_getV (r : Reg) : s.advance.getV r = s.getV r := rfl
@[simp] theorem State.advance_byteAt (a : Nat) : s.advance.byteAt a = s.byteAt a := rfl
@[simp] theorem State.advance_cell (col row : Nat) : s.advance.cell col row = s.cell col row := rfl

/-! ## `rewind` -/

@[simp] theorem State.rewind_V : s.rewind.V = s.V := rfl
@[simp] theorem State.rewind_I : s.rewind.I = s.I := rfl
@[simp] theorem State.rewind_pc : s.rewind.pc = s.pc - 2#16 := rfl
@[simp] theorem State.rewind_stack : s.rewind.stack = s.stack := rfl
@[simp] theorem State.rewind_sp : s.rewind.sp = s.sp := rfl
@[simp] theorem State.rewind_disp : s.rewind.disp = s.disp := rfl
@[simp] theorem State.rewind_key : s.rewind.key = s.key := rfl
@[simp] theorem State.rewind_DT : s.rewind.DT = s.DT := rfl
@[simp] theorem State.rewind_ST : s.rewind.ST = s.ST := rfl
@[simp] theorem State.rewind_mem : s.rewind.mem = s.mem := rfl
@[simp] theorem State.rewind_runState : s.rewind.runState = s.runState := rfl
@[simp] theorem State.rewind_awaitingKey : s.rewind.awaitingKey = s.awaitingKey := rfl
@[simp] theorem State.rewind_halt : s.rewind.halt = s.halt := rfl
@[simp] theorem State.rewind_faultPc : s.rewind.faultPc = s.faultPc := rfl
@[simp] theorem State.rewind_faultOp : s.rewind.faultOp = s.faultOp := rfl
@[simp] theorem State.rewind_draws : s.rewind.draws = s.draws := rfl
@[simp] theorem State.rewind_getV (r : Reg) : s.rewind.getV r = s.getV r := rfl
@[simp] theorem State.rewind_byteAt (a : Nat) : s.rewind.byteAt a = s.byteAt a := rfl
@[simp] theorem State.rewind_cell (col row : Nat) : s.rewind.cell col row = s.cell col row := rfl

/-! ## Register writes and what is not a register -/

@[simp] theorem State.setV_byteAt (x : Reg) (v : Byte) (a : Nat) : (s.setV x v).byteAt a = s.byteAt a := rfl
@[simp] theorem State.setV_cell (x : Reg) (v : Byte) (col row : Nat) : (s.setV x v).cell col row = s.cell col row := rfl
@[simp] theorem State.setRegs_getV (V : Vector Byte 16) (r : Reg) : (s.setRegs V).getV r = V.get r := rfl
@[simp] theorem State.setMem_byteAt (m : Memory) (a : Nat) : (s.setMem m).byteAt a = Memory.read m a := rfl

/-! ## Taking a fault -/

@[simp] theorem State.takeFault_V (k : HaltCode) (a op : Word) : (s.takeFault k a op).V = s.V := rfl
@[simp] theorem State.takeFault_I (k : HaltCode) (a op : Word) : (s.takeFault k a op).I = s.I := rfl
@[simp] theorem State.takeFault_pc (k : HaltCode) (a op : Word) : (s.takeFault k a op).pc = a := rfl
@[simp] theorem State.takeFault_stack (k : HaltCode) (a op : Word) : (s.takeFault k a op).stack = s.stack := rfl
@[simp] theorem State.takeFault_sp (k : HaltCode) (a op : Word) : (s.takeFault k a op).sp = s.sp := rfl
@[simp] theorem State.takeFault_disp (k : HaltCode) (a op : Word) : (s.takeFault k a op).disp = s.disp := rfl
@[simp] theorem State.takeFault_key (k : HaltCode) (a op : Word) : (s.takeFault k a op).key = s.key := rfl
@[simp] theorem State.takeFault_DT (k : HaltCode) (a op : Word) : (s.takeFault k a op).DT = s.DT := rfl
@[simp] theorem State.takeFault_ST (k : HaltCode) (a op : Word) : (s.takeFault k a op).ST = s.ST := rfl
@[simp] theorem State.takeFault_mem (k : HaltCode) (a op : Word) : (s.takeFault k a op).mem = s.mem := rfl
@[simp] theorem State.takeFault_runState (k : HaltCode) (a op : Word) : (s.takeFault k a op).runState = s.runState := rfl
@[simp] theorem State.takeFault_awaitingKey (k : HaltCode) (a op : Word) : (s.takeFault k a op).awaitingKey = s.awaitingKey := rfl
@[simp] theorem State.takeFault_halt (k : HaltCode) (a op : Word) : (s.takeFault k a op).halt = k := rfl
@[simp] theorem State.takeFault_faultPc (k : HaltCode) (a op : Word) : (s.takeFault k a op).faultPc = a := rfl
@[simp] theorem State.takeFault_faultOp (k : HaltCode) (a op : Word) : (s.takeFault k a op).faultOp = op := rfl
@[simp] theorem State.takeFault_draws (k : HaltCode) (a op : Word) : (s.takeFault k a op).draws = s.draws := rfl
@[simp] theorem State.takeFault_getV (k : HaltCode) (a op : Word) (r : Reg) : (s.takeFault k a op).getV r = s.getV r := rfl
@[simp] theorem State.takeFault_byteAt (k : HaltCode) (a op : Word) (b : Nat) : (s.takeFault k a op).byteAt b = s.byteAt b := rfl
@[simp] theorem State.takeFault_cell (k : HaltCode) (a op : Word) (col row : Nat) :
    (s.takeFault k a op).cell col row = s.cell col row := rfl
@[simp] theorem State.raiseFault_V (k : HaltCode) (i : Instr) : (s.raiseFault k i).V = s.V := rfl
@[simp] theorem State.raiseFault_I (k : HaltCode) (i : Instr) : (s.raiseFault k i).I = s.I := rfl
@[simp] theorem State.raiseFault_pc (k : HaltCode) (i : Instr) : (s.raiseFault k i).pc = s.pc - 2#16 := rfl
@[simp] theorem State.raiseFault_stack (k : HaltCode) (i : Instr) : (s.raiseFault k i).stack = s.stack := rfl
@[simp] theorem State.raiseFault_sp (k : HaltCode) (i : Instr) : (s.raiseFault k i).sp = s.sp := rfl
@[simp] theorem State.raiseFault_disp (k : HaltCode) (i : Instr) : (s.raiseFault k i).disp = s.disp := rfl
@[simp] theorem State.raiseFault_key (k : HaltCode) (i : Instr) : (s.raiseFault k i).key = s.key := rfl
@[simp] theorem State.raiseFault_DT (k : HaltCode) (i : Instr) : (s.raiseFault k i).DT = s.DT := rfl
@[simp] theorem State.raiseFault_ST (k : HaltCode) (i : Instr) : (s.raiseFault k i).ST = s.ST := rfl
@[simp] theorem State.raiseFault_mem (k : HaltCode) (i : Instr) : (s.raiseFault k i).mem = s.mem := rfl
@[simp] theorem State.raiseFault_runState (k : HaltCode) (i : Instr) : (s.raiseFault k i).runState = s.runState := rfl
@[simp] theorem State.raiseFault_awaitingKey (k : HaltCode) (i : Instr) : (s.raiseFault k i).awaitingKey = s.awaitingKey := rfl
@[simp] theorem State.raiseFault_halt (k : HaltCode) (i : Instr) : (s.raiseFault k i).halt = k := rfl
@[simp] theorem State.raiseFault_faultPc (k : HaltCode) (i : Instr) : (s.raiseFault k i).faultPc = s.pc - 2#16 := rfl
@[simp] theorem State.raiseFault_faultOp (k : HaltCode) (i : Instr) : (s.raiseFault k i).faultOp = encode i := rfl
@[simp] theorem State.raiseFault_draws (k : HaltCode) (i : Instr) : (s.raiseFault k i).draws = s.draws := rfl
@[simp] theorem State.raiseFault_getV (k : HaltCode) (i : Instr) (r : Reg) : (s.raiseFault k i).getV r = s.getV r := rfl
@[simp] theorem State.raiseFault_byteAt (k : HaltCode) (i : Instr) (b : Nat) : (s.raiseFault k i).byteAt b = s.byteAt b := rfl
@[simp] theorem State.raiseFault_cell (k : HaltCode) (i : Instr) (col row : Nat) :
    (s.raiseFault k i).cell col row = s.cell col row := rfl

/-- The rewind undoes the advance: the address of the instruction is `pc - 2` (R10, R70). -/
@[simp] theorem word_advance_rewind (a : Word) : a + 2#16 - 2#16 = a := by
  rw [BitVec.add_sub_cancel]

/-! ## Conditional updates -/

theorem State.skipIf_eq (c : Bool) : s.skipIf c = s.setPc (if c then s.pc + 2#16 else s.pc) := by
  cases c <;> rfl

@[simp] theorem State.skipIf_pc (c : Bool) : (s.skipIf c).pc = if c then s.pc + 2#16 else s.pc := by
  cases c <;> rfl

@[simp] theorem State.skipIf_V (c : Bool) : (s.skipIf c).V = s.V := by cases c <;> rfl
@[simp] theorem State.skipIf_I (c : Bool) : (s.skipIf c).I = s.I := by cases c <;> rfl
@[simp] theorem State.skipIf_stack (c : Bool) : (s.skipIf c).stack = s.stack := by cases c <;> rfl
@[simp] theorem State.skipIf_sp (c : Bool) : (s.skipIf c).sp = s.sp := by cases c <;> rfl
@[simp] theorem State.skipIf_disp (c : Bool) : (s.skipIf c).disp = s.disp := by cases c <;> rfl
@[simp] theorem State.skipIf_key (c : Bool) : (s.skipIf c).key = s.key := by cases c <;> rfl
@[simp] theorem State.skipIf_DT (c : Bool) : (s.skipIf c).DT = s.DT := by cases c <;> rfl
@[simp] theorem State.skipIf_ST (c : Bool) : (s.skipIf c).ST = s.ST := by cases c <;> rfl
@[simp] theorem State.skipIf_mem (c : Bool) : (s.skipIf c).mem = s.mem := by cases c <;> rfl
@[simp] theorem State.skipIf_runState (c : Bool) : (s.skipIf c).runState = s.runState := by cases c <;> rfl
@[simp] theorem State.skipIf_awaitingKey (c : Bool) : (s.skipIf c).awaitingKey = s.awaitingKey := by cases c <;> rfl
@[simp] theorem State.skipIf_halt (c : Bool) : (s.skipIf c).halt = s.halt := by cases c <;> rfl
@[simp] theorem State.skipIf_faultPc (c : Bool) : (s.skipIf c).faultPc = s.faultPc := by cases c <;> rfl
@[simp] theorem State.skipIf_faultOp (c : Bool) : (s.skipIf c).faultOp = s.faultOp := by cases c <;> rfl
@[simp] theorem State.skipIf_draws (c : Bool) : (s.skipIf c).draws = s.draws := by cases c <;> rfl
@[simp] theorem State.skipIf_getV (c : Bool) (r : Reg) : (s.skipIf c).getV r = s.getV r := by cases c <;> rfl
@[simp] theorem State.skipIf_byteAt (c : Bool) (a : Nat) : (s.skipIf c).byteAt a = s.byteAt a := by cases c <;> rfl
@[simp] theorem State.skipIf_cell (c : Bool) (col row : Nat) : (s.skipIf c).cell col row = s.cell col row := by
  cases c <;> rfl

@[simp] theorem State.writeFlagged_I (o : FlagOrder) (x : Reg) (f : State → Bool) (r : State → Byte) :
    (s.writeFlagged o x f r).I = s.I := by cases o <;> rfl
@[simp] theorem State.writeFlagged_pc (o : FlagOrder) (x : Reg) (f : State → Bool) (r : State → Byte) :
    (s.writeFlagged o x f r).pc = s.pc := by cases o <;> rfl
@[simp] theorem State.writeFlagged_stack (o : FlagOrder) (x : Reg) (f : State → Bool) (r : State → Byte) :
    (s.writeFlagged o x f r).stack = s.stack := by cases o <;> rfl
@[simp] theorem State.writeFlagged_sp (o : FlagOrder) (x : Reg) (f : State → Bool) (r : State → Byte) :
    (s.writeFlagged o x f r).sp = s.sp := by cases o <;> rfl
@[simp] theorem State.writeFlagged_disp (o : FlagOrder) (x : Reg) (f : State → Bool) (r : State → Byte) :
    (s.writeFlagged o x f r).disp = s.disp := by cases o <;> rfl
@[simp] theorem State.writeFlagged_key (o : FlagOrder) (x : Reg) (f : State → Bool) (r : State → Byte) :
    (s.writeFlagged o x f r).key = s.key := by cases o <;> rfl
@[simp] theorem State.writeFlagged_DT (o : FlagOrder) (x : Reg) (f : State → Bool) (r : State → Byte) :
    (s.writeFlagged o x f r).DT = s.DT := by cases o <;> rfl
@[simp] theorem State.writeFlagged_ST (o : FlagOrder) (x : Reg) (f : State → Bool) (r : State → Byte) :
    (s.writeFlagged o x f r).ST = s.ST := by cases o <;> rfl
@[simp] theorem State.writeFlagged_mem (o : FlagOrder) (x : Reg) (f : State → Bool) (r : State → Byte) :
    (s.writeFlagged o x f r).mem = s.mem := by cases o <;> rfl
@[simp] theorem State.writeFlagged_runState (o : FlagOrder) (x : Reg) (f : State → Bool) (r : State → Byte) :
    (s.writeFlagged o x f r).runState = s.runState := by cases o <;> rfl
@[simp] theorem State.writeFlagged_awaitingKey (o : FlagOrder) (x : Reg) (f : State → Bool) (r : State → Byte) :
    (s.writeFlagged o x f r).awaitingKey = s.awaitingKey := by cases o <;> rfl
@[simp] theorem State.writeFlagged_halt (o : FlagOrder) (x : Reg) (f : State → Bool) (r : State → Byte) :
    (s.writeFlagged o x f r).halt = s.halt := by cases o <;> rfl
@[simp] theorem State.writeFlagged_faultPc (o : FlagOrder) (x : Reg) (f : State → Bool) (r : State → Byte) :
    (s.writeFlagged o x f r).faultPc = s.faultPc := by cases o <;> rfl
@[simp] theorem State.writeFlagged_faultOp (o : FlagOrder) (x : Reg) (f : State → Bool) (r : State → Byte) :
    (s.writeFlagged o x f r).faultOp = s.faultOp := by cases o <;> rfl
@[simp] theorem State.writeFlagged_draws (o : FlagOrder) (x : Reg) (f : State → Bool) (r : State → Byte) :
    (s.writeFlagged o x f r).draws = s.draws := by cases o <;> rfl
@[simp] theorem State.writeFlagged_byteAt (o : FlagOrder) (x : Reg) (f : State → Bool) (r : State → Byte) (a : Nat) :
    (s.writeFlagged o x f r).byteAt a = s.byteAt a := by cases o <;> rfl
@[simp] theorem State.writeFlagged_cell (o : FlagOrder) (x : Reg) (f : State → Bool) (r : State → Byte) (col row : Nat) :
    (s.writeFlagged o x f r).cell col row = s.cell col row := by cases o <;> rfl

/-- What a flagged write leaves in the registers, in text order: the result in `x`, else the flag in `VF`. -/
theorem State.writeFlagged_text_getV (x r : Reg) (f : State → Bool) (g : State → Byte) :
    (s.writeFlagged .textOrder x f g).getV r =
      if r = x then g (s.setV VF (boolByte (f s))) else if r = VF then boolByte (f s) else s.getV r := by
  simp only [State.writeFlagged, State.setV_getV]

/-- What a flagged write leaves in the registers, with the flag last. -/
theorem State.writeFlagged_last_getV (x r : Reg) (f : State → Bool) (g : State → Byte) :
    (s.writeFlagged .flagLast x f g).getV r =
      if r = VF then boolByte (f s) else if r = x then g s else s.getV r := by
  simp only [State.writeFlagged, State.setV_getV]

/-- Two register files that read the same are the same. -/
theorem regs_ext {V W : Vector Byte 16} (h : ∀ r : Reg, V.get r = W.get r) : V = W := by
  ext i hi : 1
  exact h ⟨i, hi⟩

end Sys2Proof.Machine
end

