-- ==== Sys2Proof/Laws/Ops.lean ====
section
/-! SUPPORT. What each shared operation does, said once: fetching, the stack, the least pressed key, and the runs of
registers and bytes stored and loaded, under this hardware's `P_ADDR_OOB = fault`. -/

namespace Sys2Proof.Machine

/-! ## Gating and fetching -/

theorem State.enabled_iff {s : State} : s.enabled = true ↔ s.runState = .running ∧ s.halt = .none := by
  unfold State.enabled
  rw [Bool.and_eq_true, decide_eq_true_eq, decide_eq_true_eq]

theorem fetchWord_hw {m : Memory} {a : Nat} : fetchWord .fault .fetch m a =
    if a + 1 < 4096 then some (wordOfBytes (Memory.read m a) (Memory.read m (a + 1))) else none := by
  unfold fetchWord
  rw [if_neg (by simp)]
  simp only [memRead_fault]
  by_cases h : a + 1 < 4096
  · simp only [if_pos h, if_pos (show a < 4096 by omega)]
  · by_cases h' : a < 4096
    · simp only [if_neg h, if_pos h']
    · simp only [if_neg h, if_neg h']

/-- The fetch of a step, in terms of the state. -/
theorem State.fetch_eq (s : State) : fetchWord hw.addrOob hw.oddPc s.mem s.pc.toNat =
    if s.pc.toNat + 1 < 4096 then some (s.wordAt s.pc.toNat) else none := fetchWord_hw

/-- The one inversion of a step: what it answers, case by case. -/
theorem step_eq (s : State) : step s =
    if s.runState = .running ∧ s.halt = .none then
      if s.pc.toNat + 1 < 4096 then
        match decodeWord (s.wordAt s.pc.toNat) with
        | none => .next s.advance
        | some i => exec i s.advance
      else .next (s.takeFault .memoryBounds s.pc 0#16)
    else .next s := by
  unfold step
  by_cases h : s.runState = .running ∧ s.halt = .none
  · rw [if_pos (State.enabled_iff.mpr h), if_pos h, State.fetch_eq]
    by_cases h' : s.pc.toNat + 1 < 4096
    · cases hd : decodeWord (s.wordAt s.pc.toNat) <;> simp [h', hd]
    · simp [h']
  · rw [if_neg (fun e => h (State.enabled_iff.mp e)), if_neg h]

/-! ## The stack -/

/-- A push with room: the entry at `sp` is the pushed value, and `sp` goes up by one. -/
theorem State.push_of_lt {s : State} (h : s.sp.val < 12) (v : Word) :
    s.push v = some { s with stack := s.stack.set s.sp.val v h, sp := ⟨s.sp.val + 1, by omega⟩ } := by
  unfold State.push; rw [dif_pos h]

theorem State.push_full {s : State} (h : ¬ s.sp.val < 12) (v : Word) : s.push v = none := by
  unfold State.push; rw [dif_neg h]

/-- A pop with an open call: the entry below `sp`, and `sp` goes down by one. -/
theorem State.pop_of_pos {s : State} (h : 0 < s.sp.val) :
    s.pop = some (s.stack[s.sp.val - 1]'(by omega), { s with sp := ⟨s.sp.val - 1, by omega⟩ }) := by
  unfold State.pop; rw [dif_pos h]

theorem State.pop_empty {s : State} (h : ¬ 0 < s.sp.val) : s.pop = none := by
  unfold State.pop; rw [dif_neg h]

/-! ## Registers in order, and the least pressed key -/

theorem allRegs_getElem (i : Nat) (h : i < allRegs.length) : (allRegs[i]).val = i := by
  have : ∀ j : Fin 16, (allRegs[j.val]'(j.isLt)).val = j.val := by decide
  exact this ⟨i, h⟩

theorem mem_allRegs (r : Reg) : r ∈ allRegs := by revert r; decide

/-- `V[0]` to `V[x]` are the registers up to `x`. -/
theorem mem_regsUpTo (x r : Reg) : r ∈ regsUpTo x ↔ r ≤ x := by revert x r; decide

theorem State.lowestKey_eq_none {s : State} : s.lowestKey = none ↔ ∀ k : Reg, s.key.getLsbD k.val = false := by
  unfold State.lowestKey
  rw [List.find?_eq_none]
  constructor
  · intro h k; simpa using h k (mem_allRegs k)
  · intro h k _; rw [h k]; simp

theorem State.lowestKey_eq_some {s : State} {k : Reg} : s.lowestKey = some k ↔
    s.key.getLsbD k.val = true ∧ ∀ j : Reg, j < k → s.key.getLsbD j.val = false := by
  unfold State.lowestKey
  rw [List.find?_eq_some_iff_getElem]
  constructor
  · rintro ⟨hk, i, hi, hik, hj⟩
    refine ⟨hk, fun j hjk => ?_⟩
    have e : i = k.val := by rw [← hik, allRegs_getElem]
    have hlt : j.val < i := by rw [e]; exact hjk
    have h2 := hj j.val hlt
    rwa [allRegs_getElem, Bool.not_eq_true'] at h2
  · rintro ⟨hk, hj⟩
    refine ⟨hk, k.val, k.isLt, Fin.ext (allRegs_getElem _ _), fun j hjk => ?_⟩
    rw [allRegs_getElem, Bool.not_eq_true']
    exact hj ⟨j, by omega⟩ hjk

/-- What reading a key answers: the flag of a named key, else a draw, which is counted. -/
theorem State.readKey_named {s : State} {v : Byte} (h : v.toNat < 16) : s.readKey v = (s.key.getLsbD v.toNat, s) := by
  unfold State.readKey; rw [if_pos h]

theorem State.readKey_unnamed {s : State} {v : Byte} (h : 16 ≤ v.toNat) :
    s.readKey v = (Config.keyDraw s.draws, s.countDraw) := by
  unfold State.readKey; rw [if_neg (by omega)]

/-! ## Bytes stored in a row -/

/-- Bytes stored inside memory: each at its address, every other byte as it was, the canonical form kept. -/
theorem storeBytes_fits {a : Nat} {vs : List Byte} {m : Memory} (h : a + vs.length ≤ 4096) :
    ∃ m', storeBytes .fault a vs m = some m' ∧
      (∀ k (hk : k < vs.length), Memory.read m' (a + k) = vs[k]) ∧
      (∀ b, b < a ∨ a + vs.length ≤ b → Memory.read m' b = Memory.read m b) ∧
      (Memory.wf m = true → Memory.wf m' = true) := by
  induction vs generalizing a m with
  | nil => exact ⟨m, rfl, fun k hk => absurd hk (Nat.not_lt_zero k), fun _ _ => rfl, id⟩
  | cons v vs ih =>
    simp only [List.length_cons] at h
    have ha : a < 4096 := by omega
    obtain ⟨m', hm', hin, hout, hwf⟩ := ih (a := a + 1) (m := Memory.write m a v) (by omega)
    refine ⟨m', ?_, ?_, ?_, fun hw => hwf (wf_write ha hw)⟩
    · simp only [storeBytes, memWrite_fault, if_pos ha]; exact hm'
    · intro k hk
      cases k with
      | zero =>
        show Memory.read m' a = v
        rw [hout a (Or.inl (by omega)), read_write_same]
      | succ k =>
        have hk' : k < vs.length := by simpa using hk
        have e : a + (k + 1) = a + 1 + k := by omega
        rw [e, hin k hk']; simp
    · intro b hb
      simp only [List.length_cons] at hb
      rw [hout b (by omega), read_write_other (by omega)]

/-- Bytes of which one falls outside memory are not stored: MEMORY_BOUNDS. -/
theorem storeBytes_outside {a : Nat} {vs : List Byte} {m : Memory} (h : 4096 < a + vs.length) (hv : vs ≠ []) :
    storeBytes .fault a vs m = none := by
  induction vs generalizing a m with
  | nil => exact absurd rfl hv
  | cons v vs ih =>
    simp only [storeBytes, memWrite_fault]
    by_cases ha : a < 4096
    · rw [if_pos ha]
      simp only [List.length_cons] at h
      refine ih (by omega) (fun e => ?_)
      subst e; simp at h; omega
    · rw [if_neg ha]

/-! ## Registers stored and loaded -/

/-- Registers stored inside memory: each at `base` plus its number, every other byte as it was, the canonical form
kept. -/
theorem storeRun_fits {V : Vector Byte 16} {base : Nat} {rs : List Reg} {m : Memory}
    (h : ∀ r ∈ rs, base + r.val < 4096) :
    ∃ m', storeRun .fault V base rs m = some m' ∧
      (∀ r ∈ rs, Memory.read m' (base + r.val) = V.get r) ∧
      (∀ b, (∀ r ∈ rs, b ≠ base + r.val) → Memory.read m' b = Memory.read m b) ∧
      (Memory.wf m = true → Memory.wf m' = true) := by
  induction rs generalizing m with
  | nil => exact ⟨m, rfl, fun r hr => absurd hr (List.not_mem_nil), fun _ _ => rfl, id⟩
  | cons q rs ih =>
    have hq : base + q.val < 4096 := h q List.mem_cons_self
    obtain ⟨m', hm', hin, hout, hwf⟩ :=
      ih (m := Memory.write m (base + q.val) (V.get q)) (fun r hr => h r (List.mem_cons_of_mem _ hr))
    refine ⟨m', ?_, ?_, ?_, fun hw => hwf (wf_write hq hw)⟩
    · simp only [storeRun, memWrite_fault, if_pos hq]; exact hm'
    · intro r hr
      by_cases hr' : r ∈ rs
      · exact hin r hr'
      · have e : r = q := (List.mem_cons.mp hr).resolve_right hr'
        subst e
        rw [hout _ (fun r' hr'' e => hr' ?_), read_write_same]
        have : r'.val = r.val := by omega
        rwa [← Fin.ext this]
    · intro b hb
      rw [hout b (fun r hr => hb r (List.mem_cons_of_mem _ hr)), read_write_other (hb q List.mem_cons_self)]

theorem storeRun_outside {V : Vector Byte 16} {base : Nat} {rs : List Reg} {m : Memory} {r : Reg} (hr : r ∈ rs)
    (h : 4096 ≤ base + r.val) : storeRun .fault V base rs m = none := by
  induction rs generalizing m with
  | nil => exact absurd hr List.not_mem_nil
  | cons q rs ih =>
    simp only [storeRun, memWrite_fault]
    by_cases hq : base + q.val < 4096
    · rw [if_pos hq]
      refine ih ((List.mem_cons.mp hr).resolve_left (fun e => ?_))
      subst e; omega
    · rw [if_neg hq]

/-- Registers loaded from memory: each holds the byte at `base` plus its number, every other register as it was. -/
theorem loadRun_fits {m : Memory} {base : Nat} {rs : List Reg} {V : Vector Byte 16}
    (h : ∀ r ∈ rs, base + r.val < 4096) :
    ∃ W, loadRun .fault m base rs V = some W ∧
      (∀ r ∈ rs, W.get r = Memory.read m (base + r.val)) ∧ (∀ r, r ∉ rs → W.get r = V.get r) := by
  induction rs generalizing V with
  | nil => exact ⟨V, rfl, fun r hr => absurd hr (List.not_mem_nil), fun _ _ => rfl⟩
  | cons q rs ih =>
    have hq : base + q.val < 4096 := h q List.mem_cons_self
    obtain ⟨W, hW, hin, hout⟩ :=
      ih (V := V.set q.val (Memory.read m (base + q.val)) q.isLt) (fun r hr => h r (List.mem_cons_of_mem _ hr))
    refine ⟨W, ?_, ?_, ?_⟩
    · simp only [loadRun, memRead_fault, if_pos hq]; exact hW
    · intro r hr
      by_cases hr' : r ∈ rs
      · exact hin r hr'
      · have e : r = q := (List.mem_cons.mp hr).resolve_right hr'
        subst e
        rw [hout r hr']
        exact Vector.getElem_set_self _
    · intro r hr
      rw [List.mem_cons, not_or] at hr
      rw [hout r hr.2]
      exact Vector.getElem_set_ne _ _ (fun e => hr.1 (Fin.ext e.symm))

theorem loadRun_outside {m : Memory} {base : Nat} {rs : List Reg} {V : Vector Byte 16} {r : Reg} (hr : r ∈ rs)
    (h : 4096 ≤ base + r.val) : loadRun .fault m base rs V = none := by
  induction rs generalizing V with
  | nil => exact absurd hr List.not_mem_nil
  | cons q rs ih =>
    simp only [loadRun, memRead_fault]
    by_cases hq : base + q.val < 4096
    · rw [if_pos hq]
      refine ih ((List.mem_cons.mp hr).resolve_left (fun e => ?_))
      subst e; omega
    · rw [if_neg hq]

end Sys2Proof.Machine
end

