-- ==== Sys2Proof/Laws/Draw.lean ====
section
/-! SUPPORT. What drawing a sprite does, cell by cell (45_draw.md): one row, then all rows, under this hardware's
`P_ADDR_OOB = fault`. -/

namespace Sys2Proof.Machine

/-- A cell of a canvas. -/
def Canvas.cell (c : Canvas) (col row : Nat) : Bool := c.disp.getLsbD (cellIndex col row)

theorem cellIndex_lt {col row : Nat} (hc : col < 64) (hr : row < 32) : cellIndex col row < 2048 := by
  unfold cellIndex dispW; omega

theorem cellIndex_inj {col row col' row' : Nat} (hc : col < 64) (hc' : col' < 64)
    (h : cellIndex col row = cellIndex col' row') : col = col' ∧ row = row' := by
  unfold cellIndex dispW at h; omega

/-- Plotting a bit on one cell inverts that cell if the bit is on and leaves every other cell. -/
theorem Canvas.plot_cell {c : Canvas} {col row col' row' : Nat} {bit : Bool} (hc : col < 64) (hr : row < 32)
    (hc' : col' < 64) :
    (c.plot (cellIndex col row) bit).cell col' row' =
      (c.cell col' row' ^^ (bit && decide (col' = col ∧ row' = row))) := by
  unfold Canvas.plot Canvas.cell
  cases bit
  · simp
  · simp only [if_true, Bool.true_and, BitVec.getLsbD_xor, BitVec.getLsbD_twoPow]
    have h1 : decide (cellIndex col row < 2048) = true := decide_eq_true (cellIndex_lt hc hr)
    rw [h1, Bool.true_and]
    congr 1
    by_cases h : col' = col ∧ row' = row
    · rw [h.1, h.2]; simp
    · rw [decide_eq_false h, decide_eq_false (fun e => h ?_)]
      obtain ⟨e1, e2⟩ := cellIndex_inj hc hc' e
      exact ⟨e1.symm, e2.symm⟩

theorem Canvas.plot_hit {c : Canvas} {col row : Nat} {bit : Bool} :
    (c.plot (cellIndex col row) bit).hit = (c.hit || (bit && c.cell col row)) := by
  unfold Canvas.plot Canvas.cell
  cases bit <;> simp

/-- The bit a sprite row puts on a column, among its columns from number `8 - left` on. -/
def rowBit (b : Byte) (x0 left col : Nat) : Bool :=
  decide (x0 + (8 - left) ≤ col) && decide (col < x0 + 8) && b.getLsbD (7 - (col - x0))

theorem rowBit_succ {b : Byte} {x0 left col : Nat} (h : left + 1 ≤ 8) :
    rowBit b x0 (left + 1) col = (decide (col = x0 + (7 - left)) && b.getLsbD left || rowBit b x0 left col) := by
  unfold rowBit
  by_cases hc : col = x0 + (7 - left)
  · have e : 7 - (col - x0) = left := by omega
    have h1 : x0 + (8 - (left + 1)) ≤ col := by omega
    have h2 : col < x0 + 8 := by omega
    have h3 : ¬ (x0 + (8 - left) ≤ col) := by omega
    rw [e, decide_eq_true h1, decide_eq_true h2, decide_eq_false h3, decide_eq_true hc]
    simp
  · have h1 : (x0 + (8 - (left + 1)) ≤ col) ↔ (x0 + (8 - left) ≤ col) := by omega
    rw [decide_eq_decide.mpr h1, decide_eq_false hc, Bool.false_and, Bool.false_or]

/-- One sprite row: each column of the display row is XORed with the sprite's bit on it, clipped at the right edge,
and the flag is set when an on bit met an on cell. -/
theorem Canvas.plotCols_spec {b : Byte} {row x0 : Nat} (hr : row < 32) (left : Nat) (h : left ≤ 8) (c : Canvas) :
    (∀ col' row', col' < 64 →
      (c.plotCols b row x0 left).cell col' row' =
        (c.cell col' row' ^^ (decide (row' = row) && rowBit b x0 left col'))) ∧
    ((c.plotCols b row x0 left).hit = true ↔
      c.hit = true ∨ ∃ col, col < 64 ∧ rowBit b x0 left col = true ∧ c.cell col row = true) := by
  induction left generalizing c with
  | zero =>
    have hz : ∀ col, rowBit b x0 0 col = false := by
      intro col; unfold rowBit
      by_cases hh : x0 + 8 ≤ col
      · have : ¬ col < x0 + 8 := by omega
        simp [this]
      · simp [hh]
    simp [Canvas.plotCols, hz]
  | succ left ih =>
    unfold Canvas.plotCols
    by_cases hclip : dispW ≤ x0 + (7 - left)
    · rw [if_pos hclip]
      have hz : ∀ col, col < 64 → rowBit b x0 (left + 1) col = false := by
        intro col hc; unfold rowBit
        have : ¬ (x0 + (8 - (left + 1)) ≤ col) := by unfold dispW at hclip; omega
        rw [decide_eq_false this, Bool.false_and, Bool.false_and]
      refine ⟨fun col' row' hc' => by simp [hz col' hc'], ?_⟩
      constructor
      · exact Or.inl
      · rintro (hh | ⟨col, hc, hb, -⟩)
        · exact hh
        · rw [hz col hc] at hb; exact absurd hb (by simp)
    · rw [if_neg hclip]
      have hcol : x0 + (7 - left) < 64 := by unfold dispW at hclip; omega
      obtain ⟨hcell, hhit⟩ := ih (by omega) (c.plot (cellIndex (x0 + (7 - left)) row) (b.getLsbD left))
      have hnot : rowBit b x0 left (x0 + (7 - left)) = false := by
        unfold rowBit
        have : ¬ (x0 + (8 - left) ≤ x0 + (7 - left)) := by omega
        rw [decide_eq_false this, Bool.false_and, Bool.false_and]
      refine ⟨fun col' row' hc' => ?_, ?_⟩
      · rw [hcell col' row' hc', Canvas.plot_cell hcol hr hc', rowBit_succ h]
        by_cases h1 : col' = x0 + (7 - left)
        · subst h1
          rw [hnot]
          by_cases h2 : row' = row <;> simp [h2]
        · by_cases h2 : row' = row <;> simp [h1, h2]
      · rw [hhit, Canvas.plot_hit, Bool.or_eq_true, Bool.and_eq_true]
        constructor
        · rintro ((hh | ⟨hb, hc⟩) | ⟨col, hc, hb, hon⟩)
          · exact Or.inl hh
          · exact Or.inr ⟨_, hcol, by rw [rowBit_succ h]; simp [hb], hc⟩
          · refine Or.inr ⟨col, hc, by rw [rowBit_succ h, hb]; simp, ?_⟩
            rw [Canvas.plot_cell hcol hr hc] at hon
            have hne : col ≠ x0 + (7 - left) := by rintro rfl; rw [hnot] at hb; exact absurd hb (by simp)
            simpa [hne] using hon
        · rintro (hh | ⟨col, hc, hb, hon⟩)
          · exact Or.inl (Or.inl hh)
          · by_cases hne : col = x0 + (7 - left)
            · subst hne
              rw [rowBit_succ h, hnot] at hb
              exact Or.inl (Or.inr ⟨by simpa using hb, hon⟩)
            · refine Or.inr ⟨col, hc, by rw [rowBit_succ h] at hb; simpa [hne] using hb, ?_⟩
              rw [Canvas.plot_cell hcol hr hc]
              simpa [hne] using hon

/-- The bit the sprite's rows from number `k` on, `left` of them, put on a cell. -/
def rowsBit (m : Memory) (base x0 y0 left k col row : Nat) : Bool :=
  decide (y0 + k ≤ row) && decide (row < y0 + k + left) && decide (x0 ≤ col) && decide (col < x0 + 8) &&
    (Memory.read m (base + (row - y0))).getLsbD (7 - (col - x0))

theorem rowsBit_succ {m : Memory} {base x0 y0 left k col row : Nat} :
    rowsBit m base x0 y0 (left + 1) k col row =
      (decide (row = y0 + k) && rowBit (Memory.read m (base + k)) x0 8 col || rowsBit m base x0 y0 left (k + 1) col row) := by
  unfold rowsBit rowBit
  by_cases hr : row = y0 + k
  · subst hr
    have h1 : ¬ (y0 + (k + 1) ≤ y0 + k) := by omega
    have h2 : y0 + k < y0 + k + (left + 1) := by omega
    have h3 : y0 + k - y0 = k := by omega
    simp [h2, h3]
  · have h1 : (y0 + k ≤ row) ↔ (y0 + (k + 1) ≤ row) := by omega
    have h2 : (row < y0 + k + (left + 1)) ↔ (row < y0 + (k + 1) + left) := by omega
    simp [hr, h1, h2]

/-- All rows of a sprite whose drawn rows lie in memory. -/
theorem Canvas.plotRows_fits {m : Memory} {base x0 y0 : Nat} (left k : Nat) (c : Canvas)
    (h : ∀ j, k ≤ j → j < k + left → y0 + j < 32 → base + j < 4096) :
    ∃ c', Canvas.plotRows .fault m base x0 y0 left k c = some c' ∧
      (∀ col row, col < 64 → row < 32 → c'.cell col row = (c.cell col row ^^ rowsBit m base x0 y0 left k col row)) ∧
      (c'.hit = true ↔ c.hit = true ∨ ∃ col row, col < 64 ∧ row < 32 ∧
        rowsBit m base x0 y0 left k col row = true ∧ c.cell col row = true) := by
  induction left generalizing k c with
  | zero =>
    have hz : ∀ col row, rowsBit m base x0 y0 0 k col row = false := by
      intro col row; unfold rowsBit
      by_cases h1 : y0 + k ≤ row
      · have : ¬ (row < y0 + k + 0) := by omega
        rw [decide_eq_false this]; simp
      · simp [h1]
    exact ⟨c, rfl, by simp [hz], by simp [hz]⟩
  | succ left ih =>
    unfold Canvas.plotRows
    by_cases hclip : dispH ≤ y0 + k
    · rw [if_pos hclip]
      have hz : ∀ col row, row < 32 → rowsBit m base x0 y0 (left + 1) k col row = false := by
        intro col row hr; unfold rowsBit
        have : ¬ (y0 + k ≤ row) := by unfold dispH at hclip; omega
        simp [this]
      refine ⟨c, rfl, fun col row _ hr => by simp [hz col row hr], ?_⟩
      constructor
      · exact Or.inl
      · rintro (hh | ⟨col, row, -, hr, hb, -⟩)
        · exact hh
        · rw [hz col row hr] at hb; exact absurd hb (by simp)
    · rw [if_neg hclip]
      have hrow : y0 + k < 32 := by unfold dispH at hclip; omega
      have hmem : base + k < 4096 := h k (le_refl k) (by omega) hrow
      obtain ⟨hcell, hhit⟩ :=
        Canvas.plotCols_spec (b := Memory.read m (base + k)) (x0 := x0) hrow 8 (le_refl 8) c
      obtain ⟨c', hc', hcell', hhit'⟩ :=
        ih (k + 1) (c.plotCols (Memory.read m (base + k)) (y0 + k) x0 8)
          (fun j h1 h2 h3 => h j (by omega) (by omega) h3)
      have hnot : ∀ col, rowsBit m base x0 y0 left (k + 1) col (y0 + k) = false := by
        intro col; unfold rowsBit
        have : ¬ (y0 + (k + 1) ≤ y0 + k) := by omega
        simp [this]
      refine ⟨c', by rw [memRead_fault, if_pos hmem]; exact hc', fun col row hc hr => ?_, ?_⟩
      · rw [hcell' col row hc hr, hcell col row hc, rowsBit_succ]
        by_cases h1 : row = y0 + k
        · subst h1; rw [hnot]; simp
        · simp [h1]
      · rw [hhit', hhit]
        constructor
        · rintro ((hh | ⟨col, hc, hb, hon⟩) | ⟨col, row, hc, hr, hb, hon⟩)
          · exact Or.inl hh
          · exact Or.inr ⟨col, y0 + k, hc, hrow, by rw [rowsBit_succ, hb]; simp, hon⟩
          · refine Or.inr ⟨col, row, hc, hr, by rw [rowsBit_succ, hb]; simp, ?_⟩
            have hne : row ≠ y0 + k := by rintro rfl; rw [hnot] at hb; exact absurd hb (by simp)
            rw [hcell col row hc] at hon
            simpa [hne] using hon
        · rintro (hh | ⟨col, row, hc, hr, hb, hon⟩)
          · exact Or.inl (Or.inl hh)
          · by_cases hne : row = y0 + k
            · subst hne
              rw [rowsBit_succ, hnot] at hb
              exact Or.inl (Or.inr ⟨col, hc, by simpa using hb, hon⟩)
            · refine Or.inr ⟨col, row, hc, hr, by rw [rowsBit_succ] at hb; simpa [hne] using hb, ?_⟩
              rw [hcell col row hc]
              simpa [hne] using hon

/-- A sprite with a drawn row outside memory is not drawn: MEMORY_BOUNDS. -/
theorem Canvas.plotRows_outside {m : Memory} {base x0 y0 : Nat} (left k : Nat) (c : Canvas) {j : Nat}
    (h1 : k ≤ j) (h2 : j < k + left) (h3 : y0 + j < 32) (h4 : 4096 ≤ base + j) :
    Canvas.plotRows .fault m base x0 y0 left k c = none := by
  induction left generalizing k c with
  | zero => omega
  | succ left ih =>
    unfold Canvas.plotRows
    rw [if_neg (by unfold dispH; omega), memRead_fault]
    by_cases hk : base + k < 4096
    · rw [if_pos hk]
      exact ih (k + 1) _ (by omega) (by omega)
    · rw [if_neg hk]

/-- The sprite of DXYN on a state, where its drawn rows lie in memory. -/
theorem State.drawSprite_fits {s : State} {x y : Reg} {n : Nibble}
    (h : ∀ k, k < n.toNat → (s.getV y).toNat % 32 + k < 32 → s.I.toNat + k < 4096) :
    ∃ c, s.drawSprite .fault x y n = some c ∧
      (∀ col row, col < 64 → row < 32 → c.cell col row = (s.cell col row ^^
        rowsBit s.mem s.I.toNat ((s.getV x).toNat % 64) ((s.getV y).toNat % 32) n.toNat 0 col row)) ∧
      (c.hit = true ↔ ∃ col row, col < 64 ∧ row < 32 ∧
        rowsBit s.mem s.I.toNat ((s.getV x).toNat % 64) ((s.getV y).toNat % 32) n.toNat 0 col row = true ∧
        s.cell col row = true) := by
  obtain ⟨c, hc, hcell, hhit⟩ :=
    Canvas.plotRows_fits (m := s.mem) (base := s.I.toNat) (x0 := (s.getV x).toNat % 64) (y0 := (s.getV y).toNat % 32)
      n.toNat 0 ⟨s.disp, false⟩ (fun j _ h2 h3 => h j (by omega) h3)
  refine ⟨c, hc, hcell, ?_⟩
  rw [hhit]
  simp only [Bool.false_eq_true, false_or]
  rfl

theorem State.drawSprite_outside {s : State} {x y : Reg} {n : Nibble}
    (h : ¬ ∀ k, k < n.toNat → (s.getV y).toNat % 32 + k < 32 → s.I.toNat + k < 4096) :
    s.drawSprite .fault x y n = none := by
  simp only [not_forall] at h
  obtain ⟨k, h1, h2, h3⟩ := h
  exact Canvas.plotRows_outside n.toNat 0 _ (Nat.zero_le k) (by omega) h2 (by omega)

end Sys2Proof.Machine
end

