-- ==== Sys2Proof/Laws/Exec.lean ====
section
/-! SUPPORT. What each meaning answers, said once: the next state as updates of the state before, case by case where
the instruction has cases (room on the stack, bytes inside memory, a key pressed). -/

namespace Sys2Proof.Machine

variable {s : State} {x y : Reg} {n : Nibble} {nnn : Imm12}

/-! ## Call and return -/

theorem exec_ret_open (h : 0 < s.sp.val) : exec .ret s = .next
    (({ s with sp := ⟨s.sp.val - 1, by omega⟩ } : State).setPc (s.stack[s.sp.val - 1]'(by omega))) := by
  show execRet s = _
  unfold execRet; rw [State.pop_of_pos h]

theorem exec_ret_empty (h : ¬ 0 < s.sp.val) : exec .ret s = .next (s.raiseFault .stackUnderflow .ret) := by
  show execRet s = _
  unfold execRet; rw [State.pop_empty h]

theorem exec_call_room (h : s.sp.val < 12) : exec (.call nnn) s = .next
    (({ s with stack := s.stack.set s.sp.val s.pc h, sp := ⟨s.sp.val + 1, by omega⟩ } : State).setPc (immWord nnn)) := by
  show execCall nnn s = _
  unfold execCall; rw [State.push_of_lt h]

theorem exec_call_full (h : ¬ s.sp.val < 12) :
    exec (.call nnn) s = .next (s.raiseFault .stackOverflow (.call nnn)) := by
  show execCall nnn s = _
  unfold execCall; rw [State.push_full h]

/-! ## Draw -/

/-- DXYN whose drawn rows lie in memory: its next state, and what the canvas it writes holds. -/
theorem exec_drw_fits (h : ∀ k, k < n.toNat → (s.getV y).toNat % 32 + k < 32 → s.I.toNat + k < 4096) :
    ∃ c : Canvas, exec (.drw x y n) s = .next ((s.setDisp c.disp).setV VF (boolByte c.hit)) ∧
      (∀ col row, col < 64 → row < 32 → c.cell col row = (s.cell col row ^^
        rowsBit s.mem s.I.toNat ((s.getV x).toNat % 64) ((s.getV y).toNat % 32) n.toNat 0 col row)) ∧
      (c.hit = true ↔ ∃ col row, col < 64 ∧ row < 32 ∧
        rowsBit s.mem s.I.toNat ((s.getV x).toNat % 64) ((s.getV y).toNat % 32) n.toNat 0 col row = true ∧
        s.cell col row = true) := by
  obtain ⟨c, hc, hcell, hhit⟩ := State.drawSprite_fits (x := x) h
  refine ⟨c, ?_, hcell, hhit⟩
  show execDrw x y n s = _
  unfold execDrw; rw [hw_addrOob, hc]

theorem exec_drw_outside (h : ¬ ∀ k, k < n.toNat → (s.getV y).toNat % 32 + k < 32 → s.I.toNat + k < 4096) :
    exec (.drw x y n) s = .next (s.raiseFault .memoryBounds (.drw x y n)) := by
  show execDrw x y n s = _
  unfold execDrw; rw [hw_addrOob, State.drawSprite_outside h]

/-! ## Keypad -/

theorem exec_skp_named (h : (s.getV x).toNat < 16) :
    exec (.skp x) s = .next (s.skipIf (s.key.getLsbD (s.getV x).toNat)) := by
  show execSkp x s = _
  unfold execSkp; rw [State.readKey_named h]

theorem exec_skp_unnamed (h : 16 ≤ (s.getV x).toNat) :
    exec (.skp x) s = .next (s.countDraw.skipIf (Config.keyDraw s.draws)) := by
  show execSkp x s = _
  unfold execSkp; rw [State.readKey_unnamed h]

theorem exec_sknp_named (h : (s.getV x).toNat < 16) :
    exec (.sknp x) s = .next (s.skipIf (!s.key.getLsbD (s.getV x).toNat)) := by
  show execSknp x s = _
  unfold execSknp; rw [State.readKey_named h]

theorem exec_sknp_unnamed (h : 16 ≤ (s.getV x).toNat) :
    exec (.sknp x) s = .next (s.countDraw.skipIf (!Config.keyDraw s.draws)) := by
  show execSknp x s = _
  unfold execSknp; rw [State.readKey_unnamed h]

theorem exec_ldKey_pressed {k : Reg} (h : s.lowestKey = some k) :
    exec (.ldKey x) s = .next ((s.setV x (regByte k)).setAwaiting false) := by
  show execLdKey x s = _
  unfold execLdKey; rw [h]

theorem exec_ldKey_none (h : s.lowestKey = none) : exec (.ldKey x) s = .next (s.rewind.setAwaiting true) := by
  show execLdKey x s = _
  unfold execLdKey; rw [h]

/-! ## Memory store and load -/

theorem exec_ldB_fits (h : s.I.toNat + 2 < 4096) : ∃ m, exec (.ldB x) s = .next (s.setMem m) ∧
    (∀ k (hk : k < 3), Memory.read m (s.I.toNat + k) = (bcdDigits (s.getV x))[k]'hk) ∧
    (∀ a, a < s.I.toNat ∨ s.I.toNat + 3 ≤ a → Memory.read m a = s.byteAt a) ∧
    (Memory.wf s.mem = true → Memory.wf m = true) := by
  obtain ⟨m, hm, hin, hout, hwf⟩ := storeBytes_fits (vs := bcdDigits (s.getV x)) (m := s.mem) (a := s.I.toNat)
    (by simp only [bcdDigits, List.length_cons, List.length_nil]; omega)
  refine ⟨m, ?_, hin, hout, hwf⟩
  show execLdB x s = _
  unfold execLdB; rw [hw_memOps, hw_addrOob, hm]

theorem exec_ldB_outside (h : 4096 ≤ s.I.toNat + 2) :
    exec (.ldB x) s = .next (s.raiseFault .memoryBounds (.ldB x)) := by
  show execLdB x s = _
  unfold execLdB
  rw [hw_memOps, hw_addrOob, storeBytes_outside (by simp only [bcdDigits, List.length_cons, List.length_nil]; omega)
    (by simp [bcdDigits])]

theorem exec_storeRegs_fits (h : s.I.toNat + x.val < 4096) : ∃ m, exec (.storeRegs x) s = .next (s.setMem m) ∧
    (∀ r : Reg, r ≤ x → Memory.read m (s.I.toNat + r.val) = s.getV r) ∧
    (∀ a, (∀ r : Reg, r ≤ x → a ≠ s.I.toNat + r.val) → Memory.read m a = s.byteAt a) ∧
    (Memory.wf s.mem = true → Memory.wf m = true) := by
  obtain ⟨m, hm, hin, hout, hwf⟩ := storeRun_fits (V := s.V) (base := s.I.toNat) (rs := regsUpTo x) (m := s.mem)
    (fun r hr => by have := (mem_regsUpTo x r).mp hr; have : r.val ≤ x.val := this; omega)
  refine ⟨m, ?_, fun r hr => hin r ((mem_regsUpTo x r).mpr hr),
    fun a ha => hout a (fun r hr => ha r ((mem_regsUpTo x r).mp hr)), hwf⟩
  show execStoreRegs x s = _
  unfold execStoreRegs; rw [hw_memOps, hw_addrOob, hm]; rfl

theorem exec_storeRegs_outside (h : 4096 ≤ s.I.toNat + x.val) :
    exec (.storeRegs x) s = .next (s.raiseFault .memoryBounds (.storeRegs x)) := by
  show execStoreRegs x s = _
  unfold execStoreRegs
  rw [hw_memOps, hw_addrOob, storeRun_outside ((mem_regsUpTo x x).mpr (le_refl x)) h]

theorem exec_loadRegs_fits (h : s.I.toNat + x.val < 4096) : ∃ W, exec (.loadRegs x) s = .next (s.setRegs W) ∧
    (∀ r : Reg, r ≤ x → W.get r = s.byteAt (s.I.toNat + r.val)) ∧ (∀ r : Reg, ¬ r ≤ x → W.get r = s.getV r) := by
  obtain ⟨W, hW, hin, hout⟩ := loadRun_fits (m := s.mem) (base := s.I.toNat) (rs := regsUpTo x) (V := s.V)
    (fun r hr => by have := (mem_regsUpTo x r).mp hr; have : r.val ≤ x.val := this; omega)
  refine ⟨W, ?_, fun r hr => hin r ((mem_regsUpTo x r).mpr hr),
    fun r hr => hout r (fun e => hr ((mem_regsUpTo x r).mp e))⟩
  show execLoadRegs x s = _
  unfold execLoadRegs; rw [hw_memOps, hw_addrOob, hW]; rfl

theorem exec_loadRegs_outside (h : 4096 ≤ s.I.toNat + x.val) :
    exec (.loadRegs x) s = .next (s.raiseFault .memoryBounds (.loadRegs x)) := by
  show execLoadRegs x s = _
  unfold execLoadRegs
  rw [hw_memOps, hw_addrOob, loadRun_outside ((mem_regsUpTo x x).mpr (le_refl x)) h]

/-! ## All instructions at once -/

/-- No meaning stops the model: each answers a next state. -/
theorem exec_answers_next (i : Instr) (s : State) : ∃ t, exec i s = .next t := by
  cases i
  case ret =>
    by_cases h : 0 < s.sp.val
    · exact ⟨_, exec_ret_open h⟩
    · exact ⟨_, exec_ret_empty h⟩
  case call nnn =>
    by_cases h : s.sp.val < 12
    · exact ⟨_, exec_call_room h⟩
    · exact ⟨_, exec_call_full h⟩
  case drw x y n =>
    by_cases h : ∀ k, k < n.toNat → (s.getV y).toNat % 32 + k < 32 → s.I.toNat + k < 4096
    · obtain ⟨c, hc, -⟩ := exec_drw_fits (x := x) h; exact ⟨_, hc⟩
    · exact ⟨_, exec_drw_outside h⟩
  case ldKey x =>
    cases h : s.lowestKey with
    | none => exact ⟨_, exec_ldKey_none h⟩
    | some k => exact ⟨_, exec_ldKey_pressed h⟩
  case ldB x =>
    by_cases h : s.I.toNat + 2 < 4096
    · obtain ⟨m, hm, -⟩ := exec_ldB_fits (x := x) h; exact ⟨_, hm⟩
    · exact ⟨_, exec_ldB_outside (by omega)⟩
  case storeRegs x =>
    by_cases h : s.I.toNat + x.val < 4096
    · obtain ⟨m, hm, -⟩ := exec_storeRegs_fits h; exact ⟨_, hm⟩
    · exact ⟨_, exec_storeRegs_outside (by omega)⟩
  case loadRegs x =>
    by_cases h : s.I.toNat + x.val < 4096
    · obtain ⟨W, hW, -⟩ := exec_loadRegs_fits h; exact ⟨_, hW⟩
    · exact ⟨_, exec_loadRegs_outside (by omega)⟩
  all_goals exact ⟨_, rfl⟩

end Sys2Proof.Machine
end

