-- ==== Sys2Proof/Machine/RecordStep.lean ====
section
/-! DEFINITION. The machine on R34's record and nothing else (10_state.md R34), with the draws as an argument (00_scope.md
R7, 40_execution_cycle.md R77): the state type here is `CoreRecord`. `exec` and `step` have no place for an argument
beside the state, so they run on the record beside a count of draws (log entry 2); Laws/Draws.lean proves that they are
this machine with the draws read at that count. -/

namespace Sys2Proof.Machine

/-- The draws of one step (R77): the byte of CXNN, and the Boolean of EX9E and EXA1 for a key index of 16 or more. -/
structure Draws where
  byte : Byte
  key  : Bool
  deriving DecidableEq, Repr

/-- The draws that `exec` and `step` take from this state. -/
def State.drawn (s : State) : Draws := ⟨Config.randomByte s.draws, Config.keyDraw s.draws⟩

/-- The same record at another count of draws. -/
def State.atDraw (s : State) (k : Nat) : State := { s with draws := k }

/-- Is the key that a register's value names pressed, the draw `p` where it names none (R110). -/
def State.keyOr (s : State) (k : Byte) (p : Bool) : Bool := if k.toNat < 16 then s.key.getLsbD k.toNat else p

/-- The meaning of an instruction with its draws given: the three that draw take the value from `d` (R104, R110, R111),
and every other one is `exec`'s. -/
def execWith (d : Draws) (i : Instr) (s : State) : Host.Outcome State Fault Refusal :=
  match i with
  | .rnd x nn => .next (s.setV x (d.byte &&& nn))
  | .skp x => .next (s.skipIf (s.keyOr (s.getV x) d.key))
  | .sknp x => .next (s.skipIf (!s.keyOr (s.getV x) d.key))
  | _ => exec i s

/-- `Step(s)` of R77 with its draws given. -/
def stepWith (d : Draws) (s : State) : Host.Outcome State Fault Refusal :=
  if s.enabled then
    match fetchWord hw.addrOob hw.oddPc s.mem s.pc.toNat with
    | none => .next (s.takeFault .memoryBounds s.pc 0#16)
    | some op =>
      match decodeWord op with
      | none => .next s.advance
      | some i => execWith d i s.advance
  else .next s

/-- The record beside a count that nothing below reads. -/
def CoreRecord.toState (r : CoreRecord) : State := { r with draws := 0 }

/-- The record of the next state. No meaning ends otherwise (`exec_answers_next`), so the last two cases are never
reached. -/
def CoreRecord.after (r : CoreRecord) : Host.Outcome State Fault Refusal → CoreRecord
  | .next t => t.toCoreRecord
  | .fault _ => r
  | .refused _ => r

/-- The step of R77 on R34's record: a function of the record, the configuration and the draws. -/
def CoreRecord.step (d : Draws) (r : CoreRecord) : CoreRecord := r.after (stepWith d r.toState)

/-- One event of R66 on R34's record. Only a step uses the draws. -/
def CoreRecord.apply (d : Draws) (r : CoreRecord) (e : Event) : CoreRecord :=
  match e with
  | .step => r.step d
  | .tick => r.toState.tick.toCoreRecord
  | .pause => r.toState.pause.toCoreRecord
  | .resume => r.toState.resume.toCoreRecord
  | .setKeys k => (r.toState.setKeys k).toCoreRecord
  | .reset rom => (r.toState.initialise rom.bytes).toCoreRecord
  | .quit => r

end Sys2Proof.Machine
end

