-- ==== Sys2Proof/Laws/Draws.lean ====
section
/-! SUPPORT. The count of draws stands for an input and for nothing else (10_state.md R29, R34; log entry 2): `step` and
every event are the machine on R34's record (Machine/RecordStep.lean), with the draws read at the count. -/

namespace Sys2Proof.Machine

variable {s : State} {k : Nat}

@[simp] theorem State.atDraw_draws : (s.atDraw k).draws = k := rfl
@[simp] theorem State.atDraw_getV (r : Reg) : (s.atDraw k).getV r = s.getV r := rfl
@[simp] theorem State.atDraw_record : (s.atDraw k).toCoreRecord = s.toCoreRecord := rfl

theorem State.skipIf_record (c : Bool) : ((s.atDraw k).skipIf c).toCoreRecord = (s.skipIf c).toCoreRecord := by
  cases c <;> rfl

theorem State.keyOr_named {v : Byte} (h : v.toNat < 16) (p : Bool) : s.keyOr v p = s.key.getLsbD v.toNat := if_pos h
theorem State.keyOr_unnamed {v : Byte} (h : 16 ≤ v.toNat) (p : Bool) : s.keyOr v p = p := if_neg (Nat.not_lt.mpr h)

/-- The record that `exec` gives is the one that its meaning with the draws given has, at any count. -/
theorem exec_record (i : Instr) (s : State) (k : Nat) :
    ∃ t t', exec i s = .next t ∧ execWith s.drawn i (s.atDraw k) = .next t' ∧ t'.toCoreRecord = t.toCoreRecord := by
  cases i
  case ret =>
    by_cases h : 0 < s.sp.val
    · exact ⟨_, _, exec_ret_open h, exec_ret_open (s := s.atDraw k) h, rfl⟩
    · exact ⟨_, _, exec_ret_empty h, exec_ret_empty (s := s.atDraw k) h, rfl⟩
  case call nnn =>
    by_cases h : s.sp.val < 12
    · exact ⟨_, _, exec_call_room h, exec_call_room (s := s.atDraw k) h, rfl⟩
    · exact ⟨_, _, exec_call_full h, exec_call_full (s := s.atDraw k) h, rfl⟩
  case seImm x nn => exact ⟨_, _, rfl, rfl, State.skipIf_record _⟩
  case sneImm x nn => exact ⟨_, _, rfl, rfl, State.skipIf_record _⟩
  case seReg x y => exact ⟨_, _, rfl, rfl, State.skipIf_record _⟩
  case sneReg x y => exact ⟨_, _, rfl, rfl, State.skipIf_record _⟩
  case rnd x nn => exact ⟨_, _, rfl, rfl, rfl⟩
  case drw x y n =>
    have e : execWith s.drawn (.drw x y n) (s.atDraw k) = match s.drawSprite hw.addrOob x y n with
        | some c => .next (((s.atDraw k).setDisp c.disp).setV VF (boolByte c.hit))
        | none => .next ((s.atDraw k).raiseFault .memoryBounds (.drw x y n)) := rfl
    rw [e]
    show ∃ t t', execDrw x y n s = _ ∧ _
    unfold execDrw
    cases s.drawSprite hw.addrOob x y n with
    | none => exact ⟨_, _, rfl, rfl, rfl⟩
    | some c => exact ⟨_, _, rfl, rfl, rfl⟩
  case skp x =>
    by_cases h : (s.getV x).toNat < 16
    · refine ⟨_, _, exec_skp_named h, rfl, ?_⟩
      rw [State.atDraw_getV, State.keyOr_named (s := s.atDraw k) h]
      exact State.skipIf_record _
    · refine ⟨_, _, exec_skp_unnamed (Nat.not_lt.mp h), rfl, ?_⟩
      rw [State.atDraw_getV, State.keyOr_unnamed (s := s.atDraw k) (Nat.not_lt.mp h)]
      exact State.skipIf_record (s := s.countDraw) _
  case sknp x =>
    by_cases h : (s.getV x).toNat < 16
    · refine ⟨_, _, exec_sknp_named h, rfl, ?_⟩
      rw [State.atDraw_getV, State.keyOr_named (s := s.atDraw k) h]
      exact State.skipIf_record _
    · refine ⟨_, _, exec_sknp_unnamed (Nat.not_lt.mp h), rfl, ?_⟩
      rw [State.atDraw_getV, State.keyOr_unnamed (s := s.atDraw k) (Nat.not_lt.mp h)]
      exact State.skipIf_record (s := s.countDraw) _
  case ldKey x =>
    cases h : s.lowestKey with
    | none => exact ⟨_, _, exec_ldKey_none h, exec_ldKey_none (s := s.atDraw k) h, rfl⟩
    | some j => exact ⟨_, _, exec_ldKey_pressed h, exec_ldKey_pressed (s := s.atDraw k) h, rfl⟩
  case ldB x =>
    have e : execWith s.drawn (.ldB x) (s.atDraw k) = match storeBytes hw.addrOob s.I.toNat (bcdDigits (s.getV x)) s.mem with
        | some m => .next ((s.atDraw k).setMem m)
        | none => .next ((s.atDraw k).raiseFault .memoryBounds (.ldB x)) := rfl
    rw [e]
    show ∃ t t', execLdB x s = _ ∧ _
    unfold execLdB; rw [hw_memOps]; dsimp only
    cases storeBytes hw.addrOob s.I.toNat (bcdDigits (s.getV x)) s.mem with
    | none => exact ⟨_, _, rfl, rfl, rfl⟩
    | some m => exact ⟨_, _, rfl, rfl, rfl⟩
  case storeRegs x =>
    have e : execWith s.drawn (.storeRegs x) (s.atDraw k) = match storeRun hw.addrOob s.V s.I.toNat (regsUpTo x) s.mem with
        | some m => .next (((s.atDraw k).setMem m).setI (indexAfter hw.lsI s.I x))
        | none => .next ((s.atDraw k).raiseFault .memoryBounds (.storeRegs x)) := rfl
    rw [e]
    show ∃ t t', execStoreRegs x s = _ ∧ _
    unfold execStoreRegs; rw [hw_memOps]; dsimp only
    cases storeRun hw.addrOob s.V s.I.toNat (regsUpTo x) s.mem with
    | none => exact ⟨_, _, rfl, rfl, rfl⟩
    | some m => exact ⟨_, _, rfl, rfl, rfl⟩
  case loadRegs x =>
    have e : execWith s.drawn (.loadRegs x) (s.atDraw k) = match loadRun hw.addrOob s.mem s.I.toNat (regsUpTo x) s.V with
        | some W => .next (((s.atDraw k).setRegs W).setI (indexAfter hw.lsI s.I x))
        | none => .next ((s.atDraw k).raiseFault .memoryBounds (.loadRegs x)) := rfl
    rw [e]
    show ∃ t t', execLoadRegs x s = _ ∧ _
    unfold execLoadRegs; rw [hw_memOps]; dsimp only
    cases loadRun hw.addrOob s.mem s.I.toNat (regsUpTo x) s.V with
    | none => exact ⟨_, _, rfl, rfl, rfl⟩
    | some W => exact ⟨_, _, rfl, rfl, rfl⟩
  all_goals exact ⟨_, _, rfl, rfl, rfl⟩

/-- `stepWith` case by case, as `step_eq` says it of `step`. -/
theorem stepWith_eq (d : Draws) (s : State) : stepWith d s =
    if s.runState = .running ∧ s.halt = .none then
      if s.pc.toNat + 1 < 4096 then
        match decodeWord (s.wordAt s.pc.toNat) with
        | none => .next s.advance
        | some i => execWith d i s.advance
      else .next (s.takeFault .memoryBounds s.pc 0#16)
    else .next s := by
  unfold stepWith
  by_cases h : s.runState = .running ∧ s.halt = .none
  · rw [if_pos (State.enabled_iff.mpr h), if_pos h, State.fetch_eq]
    by_cases h' : s.pc.toNat + 1 < 4096
    · cases hd : decodeWord (s.wordAt s.pc.toNat) <;> simp [h', hd]
    · simp [h']
  · rw [if_neg (fun e => h (State.enabled_iff.mp e)), if_neg h]

/-- `step` is R77's step on R34's record, with the draws read at the count. -/
theorem step_record (s : State) : ∃ t, step s = .next t ∧ t.toCoreRecord = s.toCoreRecord.step s.drawn := by
  show ∃ t, step s = .next t ∧ t.toCoreRecord = s.toCoreRecord.after (stepWith s.drawn (s.atDraw 0))
  rw [step_eq, stepWith_eq]
  have e : (s.atDraw 0).wordAt (s.atDraw 0).pc.toNat = s.wordAt s.pc.toNat := rfl
  have g : ((s.atDraw 0).runState = .running ∧ (s.atDraw 0).halt = .none) ↔ s.runState = .running ∧ s.halt = .none :=
    Iff.rfl
  have f : (s.atDraw 0).pc.toNat + 1 < 4096 ↔ s.pc.toNat + 1 < 4096 := Iff.rfl
  rw [e]; simp only [g, f]
  split
  · split
    · cases decodeWord (s.wordAt s.pc.toNat) with
      | none => exact ⟨_, rfl, rfl⟩
      | some i =>
        obtain ⟨t, t', ht, ht', h⟩ := exec_record i s.advance 0
        have h0 : execWith s.drawn i (s.atDraw 0).advance = .next t' := ht'
        exact ⟨t, ht, by simp only [h0]; exact h.symm⟩
    · exact ⟨_, rfl, rfl⟩
  · exact ⟨_, rfl, rfl⟩

/-- Every event is the event of R66 on R34's record, with the draws read at the count. -/
theorem apply_record (s : State) (e : Event) :
    ∃ t, s.apply e = .next t ∧ t.toCoreRecord = s.toCoreRecord.apply s.drawn e := by
  cases e
  case step => exact step_record s
  case tick =>
    refine ⟨_, rfl, ?_⟩
    show s.tick.toCoreRecord = (s.atDraw 0).tick.toCoreRecord
    unfold State.tick
    have h : (s.atDraw 0).enabled = s.enabled := rfl
    rw [h]
    split <;> rfl
  all_goals exact ⟨_, rfl, rfl⟩

/-- The record after a step depends on the record and on the values drawn, not on the count. -/
theorem step_record_of_draws (hb : Config.randomByte k = Config.randomByte s.draws)
    (hk : Config.keyDraw k = Config.keyDraw s.draws) :
    ∃ t t', step s = .next t ∧ step (s.atDraw k) = .next t' ∧ t'.toCoreRecord = t.toCoreRecord := by
  obtain ⟨t, ht, h⟩ := step_record s
  obtain ⟨t', ht', h'⟩ := step_record (s.atDraw k)
  have hd : (s.atDraw k).drawn = s.drawn := by unfold State.drawn; rw [State.atDraw_draws, hb, hk]
  exact ⟨t, t', ht, ht', by rw [h', h, hd, State.atDraw_record]⟩

end Sys2Proof.Machine
end

