-- ==== Sys2Proof/Laws/Encoding.lean ====
section
/-! SUPPORT. The fields of the three word forms (30_encoding.md R53), read back, and a word put together again from its
fields. -/

namespace Sys2Proof

variable (f n : Nibble) (x y : Reg) (nn : Byte) (nnn : Imm12) (op : Word)

/-! ## Register fields -/

@[simp] theorem toFin_regBits : (regBits x).toFin = x := rfl
@[simp] theorem regBits_toFin (b : Nibble) : regBits b.toFin = b := rfl

/-! ## The form `f NNN` -/

@[simp] theorem fieldTop_wordNNN : fieldTop (wordNNN f nnn) = f := by
  apply BitVec.eq_of_getLsbD_eq
  intro i hi
  simp only [fieldTop, wordNNN, BitVec.getLsbD_extractLsb', BitVec.getLsbD_append]
  simp [hi]

@[simp] theorem fieldNNN_wordNNN : fieldNNN (wordNNN f nnn) = nnn := by
  apply BitVec.eq_of_getLsbD_eq
  intro i hi
  simp only [fieldNNN, wordNNN, BitVec.getLsbD_extractLsb', BitVec.getLsbD_append]
  simp [hi]

/-- A word is its family and its address. -/
theorem wordNNN_fields : wordNNN (fieldTop op) (fieldNNN op) = op := by
  apply BitVec.eq_of_getLsbD_eq
  intro i hi
  simp only [wordNNN, fieldTop, fieldNNN, BitVec.getLsbD_append, BitVec.getLsbD_extractLsb']
  by_cases h : i < 12
  · simp [h]
  · have e : 12 + (i - 12) = i := by omega
    have h4 : i - 12 < 4 := by omega
    simp [h, h4, e]

/-! ## The form `f X NN` -/

@[simp] theorem fieldTop_wordXNN : fieldTop (wordXNN f x nn) = f := by
  apply BitVec.eq_of_getLsbD_eq
  intro i hi
  simp only [fieldTop, wordXNN, BitVec.getLsbD_extractLsb', BitVec.getLsbD_append]
  have h1 : ¬ (12 + i < 8) := by omega
  have h2 : ¬ (12 + i - 8 < 4) := by omega
  have h3 : 12 + i - 8 - 4 = i := by omega
  simp [hi, h1, h2, h3]

@[simp] theorem fieldX_wordXNN : fieldX (wordXNN f x nn) = x := by
  have : (wordXNN f x nn).extractLsb' 8 4 = regBits x := by
    apply BitVec.eq_of_getLsbD_eq
    intro i hi
    simp only [wordXNN, BitVec.getLsbD_extractLsb', BitVec.getLsbD_append]
    have h1 : ¬ (8 + i < 8) := by omega
    have h2 : 8 + i - 8 = i := by omega
    simp [hi, h1, h2]
  rw [fieldX, this, toFin_regBits]

@[simp] theorem fieldNN_wordXNN : fieldNN (wordXNN f x nn) = nn := by
  apply BitVec.eq_of_getLsbD_eq
  intro i hi
  simp only [fieldNN, wordXNN, BitVec.getLsbD_extractLsb', BitVec.getLsbD_append]
  simp [hi]

/-- A word is its family, its register and its byte. -/
theorem wordXNN_fields : wordXNN (fieldTop op) (fieldX op) (fieldNN op) = op := by
  apply BitVec.eq_of_getLsbD_eq
  intro i hi
  simp only [wordXNN, fieldTop, fieldX, fieldNN, regBits_toFin, BitVec.getLsbD_append, BitVec.getLsbD_extractLsb']
  by_cases h : i < 8
  · simp [h]
  · by_cases h' : i - 8 < 4
    · have e : 8 + (i - 8) = i := by omega
      simp [h, h', e]
    · have e : 12 + (i - 8 - 4) = i := by omega
      have h4 : i - 8 - 4 < 4 := by omega
      simp [h, h', h4, e]

/-! ## The form `f X Y N` -/

@[simp] theorem fieldTop_wordXYN : fieldTop (wordXYN f x y n) = f := by
  apply BitVec.eq_of_getLsbD_eq
  intro i hi
  simp only [fieldTop, wordXYN, BitVec.getLsbD_extractLsb', BitVec.getLsbD_append]
  have h1 : ¬ (12 + i < 4) := by omega
  have h2 : ¬ (12 + i - 4 < 4) := by omega
  have h3 : ¬ (12 + i - 4 - 4 < 4) := by omega
  have h4 : 12 + i - 4 - 4 - 4 = i := by omega
  simp [hi, h1, h2, h3, h4]

@[simp] theorem fieldX_wordXYN : fieldX (wordXYN f x y n) = x := by
  have : (wordXYN f x y n).extractLsb' 8 4 = regBits x := by
    apply BitVec.eq_of_getLsbD_eq
    intro i hi
    simp only [wordXYN, BitVec.getLsbD_extractLsb', BitVec.getLsbD_append]
    have h1 : ¬ (8 + i < 4) := by omega
    have h2 : ¬ (8 + i - 4 < 4) := by omega
    have h3 : 8 + i - 4 - 4 = i := by omega
    simp [hi, h1, h2, h3]
  rw [fieldX, this, toFin_regBits]

@[simp] theorem fieldY_wordXYN : fieldY (wordXYN f x y n) = y := by
  have : (wordXYN f x y n).extractLsb' 4 4 = regBits y := by
    apply BitVec.eq_of_getLsbD_eq
    intro i hi
    simp only [wordXYN, BitVec.getLsbD_extractLsb', BitVec.getLsbD_append]
    have h1 : ¬ (4 + i < 4) := by omega
    have h2 : 4 + i - 4 = i := by omega
    simp [hi, h1, h2]
  rw [fieldY, this, toFin_regBits]

@[simp] theorem fieldN_wordXYN : fieldN (wordXYN f x y n) = n := by
  apply BitVec.eq_of_getLsbD_eq
  intro i hi
  simp only [fieldN, wordXYN, BitVec.getLsbD_extractLsb', BitVec.getLsbD_append]
  simp [hi]

/-- A word is its family, its two registers and its last nibble. -/
theorem wordXYN_fields : wordXYN (fieldTop op) (fieldX op) (fieldY op) (fieldN op) = op := by
  apply BitVec.eq_of_getLsbD_eq
  intro i hi
  simp only [wordXYN, fieldTop, fieldX, fieldY, fieldN, regBits_toFin, BitVec.getLsbD_append, BitVec.getLsbD_extractLsb']
  by_cases h : i < 4
  · simp [h]
  · by_cases h' : i - 4 < 4
    · have e : 4 + (i - 4) = i := by omega
      simp [h, h', e]
    · by_cases h'' : i - 4 - 4 < 4
      · have e : 8 + (i - 4 - 4) = i := by omega
        simp [h, h', h'', e]
      · have e : 12 + (i - 4 - 4 - 4) = i := by omega
        have h4 : i - 4 - 4 - 4 < 4 := by omega
        simp [h, h', h'', h4, e]

/-! ## The masks of the opcode map (R59) -/

/-- The mask of a family nibble leaves the family nibble. -/
theorem and_maskTop : op &&& 0xF000#16 = fieldTop op ++ 0#12 := by
  apply BitVec.eq_of_getLsbD_eq
  intro i hi
  simp only [fieldTop, BitVec.getLsbD_and, BitVec.getLsbD_append, BitVec.getLsbD_extractLsb']
  interval_cases i <;> simp

/-- The mask of family 8 leaves the family nibble and `N`. -/
theorem and_maskTopN : op &&& 0xF00F#16 = fieldTop op ++ 0#8 ++ fieldN op := by
  apply BitVec.eq_of_getLsbD_eq
  intro i hi
  simp only [fieldTop, fieldN, BitVec.getLsbD_and, BitVec.getLsbD_append, BitVec.getLsbD_extractLsb']
  interval_cases i <;> simp

/-- The mask of families E and F leaves the family nibble and `NN`. -/
theorem and_maskTopNN : op &&& 0xF0FF#16 = fieldTop op ++ 0#4 ++ fieldNN op := by
  apply BitVec.eq_of_getLsbD_eq
  intro i hi
  simp only [fieldTop, fieldNN, BitVec.getLsbD_and, BitVec.getLsbD_append, BitVec.getLsbD_extractLsb']
  interval_cases i <;> simp

/-! ## Bytes of a word -/

/-- The two bytes of a word make the word again (R43, R52). -/
@[simp] theorem wordOfBytes_bytes : wordOfBytes (op.extractLsb' 8 8) (op.extractLsb' 0 8) = op := by
  apply BitVec.eq_of_getLsbD_eq
  intro i hi
  simp only [wordOfBytes, BitVec.getLsbD_append, BitVec.getLsbD_extractLsb']
  by_cases h : i < 8
  · simp [h]
  · have e : 8 + (i - 8) = i := by omega
    have h8 : i - 8 < 8 := by omega
    simp [h, h8, e]

end Sys2Proof
end

