-- ==== Sys2Proof/Laws/Events.lean ====
section
/-! SUPPORT. What a reset leaves in memory and in `halt`, and what a tick does to a timer (60_exceptions.md R133,
70_reset_and_hazards.md R141, R142). -/

namespace Sys2Proof.Machine

variable {s : State} {rom : List Byte}

theorem initialise_mem_fits (h : rom.length ≤ 3584) : (s.initialise rom).mem = cellsFrom 0x200 rom := by
  have h' : ¬ maxRom < rom.length := by unfold maxRom; omega
  show (if maxRom < rom.length then [] else cellsFrom progBase rom) = _
  rw [if_neg h']; rfl

theorem initialise_mem_rejected (h : 3584 < rom.length) : (s.initialise rom).mem = [] := by
  show (if maxRom < rom.length then [] else cellsFrom progBase rom) = _
  rw [if_pos (show maxRom < rom.length from h)]

theorem initialise_halt_fits (h : rom.length ≤ 3584) : (s.initialise rom).halt = .none := by
  have h' : ¬ maxRom < rom.length := by unfold maxRom; omega
  show (if maxRom < rom.length then HaltCode.romTooLarge else HaltCode.none) = _
  rw [if_neg h']

theorem initialise_halt_rejected (h : 3584 < rom.length) : (s.initialise rom).halt = .romTooLarge := by
  show (if maxRom < rom.length then HaltCode.romTooLarge else HaltCode.none) = _
  rw [if_pos (show maxRom < rom.length from h)]

/-- `rom_len` holds the number of bytes whole (R79). -/
@[simp] theorem Rom.len_toNat (r : Rom) : r.len.toNat = r.bytes.length :=
  (BitVec.toNat_ofNat _ _).trans (Nat.mod_eq_of_lt r.fits)

@[simp] theorem State.initialise_draws : (s.initialise rom).draws = s.draws := rfl

/-- Memory after any reset is canonical. -/
theorem wf_initialise : Memory.wf (s.initialise rom).mem = true := by
  by_cases h : rom.length ≤ 3584
  · rw [initialise_mem_fits h]
    exact wfFrom_mono (Nat.zero_le _) (wfFrom_cellsFrom (by unfold memSize; omega))
  · rw [initialise_mem_rejected (by omega)]; rfl

/-- A timer counts down by one and stops at 0. -/
theorem countDown_toNat (t : Byte) : (countDown t).toNat = t.toNat - 1 := by
  revert t; decide

end Sys2Proof.Machine
end

