-- ==== Sys2Proof/Laws/PerInstr.lean ====
section
/-! SUPPORT. Statements made per instruction. `EncodesItsRow`: the word of a well-formed instruction has the fixed
bits of its row of the opcode map (30_encoding.md R59), written here as the mask and the pattern of that row. -/

namespace Sys2Proof.Laws.EncodesItsRow

open Sys2Proof

/-- The fixed bits of an instruction's row: mask and pattern. -/
def rowBits : Instr → Word × Word
  | .sys _ => (0xF000, 0x0000)
  | .cls => (0xFFFF, 0x00E0)
  | .ret => (0xFFFF, 0x00EE)
  | .jp _ => (0xF000, 0x1000)
  | .call _ => (0xF000, 0x2000)
  | .seImm _ _ => (0xF000, 0x3000)
  | .sneImm _ _ => (0xF000, 0x4000)
  | .seReg _ _ => (0xF00F, 0x5000)
  | .sneReg _ _ => (0xF00F, 0x9000)
  | .ldImm _ _ => (0xF000, 0x6000)
  | .addImm _ _ => (0xF000, 0x7000)
  | .ldReg _ _ => (0xF00F, 0x8000)
  | .orReg _ _ => (0xF00F, 0x8001)
  | .andReg _ _ => (0xF00F, 0x8002)
  | .xorReg _ _ => (0xF00F, 0x8003)
  | .addReg _ _ => (0xF00F, 0x8004)
  | .subReg _ _ => (0xF00F, 0x8005)
  | .shr _ _ => (0xF00F, 0x8006)
  | .subnReg _ _ => (0xF00F, 0x8007)
  | .shl _ _ => (0xF00F, 0x800E)
  | .ldI _ => (0xF000, 0xA000)
  | .jpV0 _ => (0xF000, 0xB000)
  | .rnd _ _ => (0xF000, 0xC000)
  | .drw _ _ _ => (0xF000, 0xD000)
  | .skp _ => (0xF0FF, 0xE09E)
  | .sknp _ => (0xF0FF, 0xE0A1)
  | .ldKey _ => (0xF0FF, 0xF00A)
  | .ldFromDT _ => (0xF0FF, 0xF007)
  | .ldDT _ => (0xF0FF, 0xF015)
  | .ldST _ => (0xF0FF, 0xF018)
  | .addI _ => (0xF0FF, 0xF01E)
  | .ldF _ => (0xF0FF, 0xF029)
  | .ldB _ => (0xF0FF, 0xF033)
  | .storeRegs _ => (0xF0FF, 0xF055)
  | .loadRegs _ => (0xF0FF, 0xF065)

/-- The word of a well-formed instruction has its row's fixed bits. -/
def Statement (i : Instr) : Prop := i.WellFormed → encode i &&& (rowBits i).1 = (rowBits i).2

theorem sys (nnn : Imm12) : Statement (.sys nnn) := fun _ => by
  show encode _ &&& 0xF000#16 = _
  rw [and_maskTop, encode, fieldTop_wordNNN]; rfl
theorem cls : Statement .cls := fun _ => by decide
theorem ret : Statement .ret := fun _ => by decide
theorem jp (nnn : Imm12) : Statement (.jp nnn) := fun _ => by
  show encode _ &&& 0xF000#16 = _
  rw [and_maskTop, encode, fieldTop_wordNNN]; rfl
theorem call (nnn : Imm12) : Statement (.call nnn) := fun _ => by
  show encode _ &&& 0xF000#16 = _
  rw [and_maskTop, encode, fieldTop_wordNNN]; rfl
theorem seImm (x : Reg) (nn : Byte) : Statement (.seImm x nn) := fun _ => by
  show encode _ &&& 0xF000#16 = _
  rw [and_maskTop, encode, fieldTop_wordXNN]; rfl
theorem sneImm (x : Reg) (nn : Byte) : Statement (.sneImm x nn) := fun _ => by
  show encode _ &&& 0xF000#16 = _
  rw [and_maskTop, encode, fieldTop_wordXNN]; rfl
theorem seReg (x y : Reg) : Statement (.seReg x y) := fun _ => by
  show encode _ &&& 0xF00F#16 = _
  rw [and_maskTopN, encode, fieldTop_wordXYN, fieldN_wordXYN]; rfl
theorem sneReg (x y : Reg) : Statement (.sneReg x y) := fun _ => by
  show encode _ &&& 0xF00F#16 = _
  rw [and_maskTopN, encode, fieldTop_wordXYN, fieldN_wordXYN]; rfl
theorem ldImm (x : Reg) (nn : Byte) : Statement (.ldImm x nn) := fun _ => by
  show encode _ &&& 0xF000#16 = _
  rw [and_maskTop, encode, fieldTop_wordXNN]; rfl
theorem addImm (x : Reg) (nn : Byte) : Statement (.addImm x nn) := fun _ => by
  show encode _ &&& 0xF000#16 = _
  rw [and_maskTop, encode, fieldTop_wordXNN]; rfl
theorem ldReg (x y : Reg) : Statement (.ldReg x y) := fun _ => by
  show encode _ &&& 0xF00F#16 = _
  rw [and_maskTopN, encode, fieldTop_wordXYN, fieldN_wordXYN]; rfl
theorem orReg (x y : Reg) : Statement (.orReg x y) := fun _ => by
  show encode _ &&& 0xF00F#16 = _
  rw [and_maskTopN, encode, fieldTop_wordXYN, fieldN_wordXYN]; rfl
theorem andReg (x y : Reg) : Statement (.andReg x y) := fun _ => by
  show encode _ &&& 0xF00F#16 = _
  rw [and_maskTopN, encode, fieldTop_wordXYN, fieldN_wordXYN]; rfl
theorem xorReg (x y : Reg) : Statement (.xorReg x y) := fun _ => by
  show encode _ &&& 0xF00F#16 = _
  rw [and_maskTopN, encode, fieldTop_wordXYN, fieldN_wordXYN]; rfl
theorem addReg (x y : Reg) : Statement (.addReg x y) := fun _ => by
  show encode _ &&& 0xF00F#16 = _
  rw [and_maskTopN, encode, fieldTop_wordXYN, fieldN_wordXYN]; rfl
theorem subReg (x y : Reg) : Statement (.subReg x y) := fun _ => by
  show encode _ &&& 0xF00F#16 = _
  rw [and_maskTopN, encode, fieldTop_wordXYN, fieldN_wordXYN]; rfl
theorem shr (x y : Reg) : Statement (.shr x y) := fun _ => by
  show encode _ &&& 0xF00F#16 = _
  rw [and_maskTopN, encode, fieldTop_wordXYN, fieldN_wordXYN]; rfl
theorem subnReg (x y : Reg) : Statement (.subnReg x y) := fun _ => by
  show encode _ &&& 0xF00F#16 = _
  rw [and_maskTopN, encode, fieldTop_wordXYN, fieldN_wordXYN]; rfl
theorem shl (x y : Reg) : Statement (.shl x y) := fun _ => by
  show encode _ &&& 0xF00F#16 = _
  rw [and_maskTopN, encode, fieldTop_wordXYN, fieldN_wordXYN]; rfl
theorem ldI (nnn : Imm12) : Statement (.ldI nnn) := fun _ => by
  show encode _ &&& 0xF000#16 = _
  rw [and_maskTop, encode, fieldTop_wordNNN]; rfl
theorem jpV0 (nnn : Imm12) : Statement (.jpV0 nnn) := fun _ => by
  show encode _ &&& 0xF000#16 = _
  rw [and_maskTop, encode, fieldTop_wordNNN]; rfl
theorem rnd (x : Reg) (nn : Byte) : Statement (.rnd x nn) := fun _ => by
  show encode _ &&& 0xF000#16 = _
  rw [and_maskTop, encode, fieldTop_wordXNN]; rfl
theorem drw (x y : Reg) (n : Nibble) : Statement (.drw x y n) := fun _ => by
  show encode _ &&& 0xF000#16 = _
  rw [and_maskTop, encode, fieldTop_wordXYN]; rfl
theorem skp (x : Reg) : Statement (.skp x) := fun _ => by
  show encode _ &&& 0xF0FF#16 = _
  rw [and_maskTopNN, encode, fieldTop_wordXNN, fieldNN_wordXNN]; rfl
theorem sknp (x : Reg) : Statement (.sknp x) := fun _ => by
  show encode _ &&& 0xF0FF#16 = _
  rw [and_maskTopNN, encode, fieldTop_wordXNN, fieldNN_wordXNN]; rfl
theorem ldKey (x : Reg) : Statement (.ldKey x) := fun _ => by
  show encode _ &&& 0xF0FF#16 = _
  rw [and_maskTopNN, encode, fieldTop_wordXNN, fieldNN_wordXNN]; rfl
theorem ldFromDT (x : Reg) : Statement (.ldFromDT x) := fun _ => by
  show encode _ &&& 0xF0FF#16 = _
  rw [and_maskTopNN, encode, fieldTop_wordXNN, fieldNN_wordXNN]; rfl
theorem ldDT (x : Reg) : Statement (.ldDT x) := fun _ => by
  show encode _ &&& 0xF0FF#16 = _
  rw [and_maskTopNN, encode, fieldTop_wordXNN, fieldNN_wordXNN]; rfl
theorem ldST (x : Reg) : Statement (.ldST x) := fun _ => by
  show encode _ &&& 0xF0FF#16 = _
  rw [and_maskTopNN, encode, fieldTop_wordXNN, fieldNN_wordXNN]; rfl
theorem addI (x : Reg) : Statement (.addI x) := fun _ => by
  show encode _ &&& 0xF0FF#16 = _
  rw [and_maskTopNN, encode, fieldTop_wordXNN, fieldNN_wordXNN]; rfl
theorem ldF (x : Reg) : Statement (.ldF x) := fun _ => by
  show encode _ &&& 0xF0FF#16 = _
  rw [and_maskTopNN, encode, fieldTop_wordXNN, fieldNN_wordXNN]; rfl
theorem ldB (x : Reg) : Statement (.ldB x) := fun _ => by
  show encode _ &&& 0xF0FF#16 = _
  rw [and_maskTopNN, encode, fieldTop_wordXNN, fieldNN_wordXNN]; rfl
theorem storeRegs (x : Reg) : Statement (.storeRegs x) := fun _ => by
  show encode _ &&& 0xF0FF#16 = _
  rw [and_maskTopNN, encode, fieldTop_wordXNN, fieldNN_wordXNN]; rfl
theorem loadRegs (x : Reg) : Statement (.loadRegs x) := fun _ => by
  show encode _ &&& 0xF0FF#16 = _
  rw [and_maskTopNN, encode, fieldTop_wordXNN, fieldNN_wordXNN]; rfl

end Sys2Proof.Laws.EncodesItsRow
end

