-- ==== Sys2Proof/Tests/Slice0.lean ====
section
/-! SUPPORT. The model's own tests. Expected values come from the spec's worked examples and vectors
(95_test_vectors.md, cited by id or section) or from the encodings of 30_encoding.md, written out by hand. -/

namespace Sys2Proof.Tests

open Sys2Proof Sys2Proof.Machine Sys2Proof.Claims

/-! ## Helpers -/

/-- The next state of an outcome. -/
def next? (o : Host.Outcome State Fault Refusal) : Option State :=
  match o with
  | .next s => some s
  | .fault _ => none
  | .refused _ => none

/-- One step of the core on a word placed where it fetches. -/
def stepOn (w : Nat) (s : State) : Option State := next? (step (s.withFetchWord 16 w))

/-- The reset state with some registers set. -/
def withV (rs : List (Reg × Byte)) : State := rs.foldl (fun s r => s.setV r.1 r.2) State.reset

/-- The given registers of an outcome. -/
def regsOf (o : Option State) (rs : List Reg) : Option (List Byte) := o.map (fun s => rs.map s.getV)

/-- The bytes of an outcome's memory from an address on. -/
def bytesOf (o : Option State) (a n : Nat) : Option (List Byte) := o.map (fun s => (List.range n).map (fun k => s.byteAt (a + k)))

/-- The cells that are on, by index. -/
def onCells (s : State) (upTo : Nat) : List Nat := (List.range upTo).filter (fun k => s.disp.getLsbD k)

/-! ## WellFormed smoke -/

/-- SYS with the immediate of CLS is no instruction (R57). -/
theorem test_wf_sys_cls_refused : (Instr.sys 0x0E0#12).wellFormed = false := by decide
/-- SYS with the immediate of RET is no instruction (R57). -/
theorem test_wf_sys_ret_refused : (Instr.sys 0x0EE#12).wellFormed = false := by decide
theorem test_wf_sys_accepted : (Instr.sys 0x0E1#12).wellFormed = true := by decide

/-! ## Decoding: words written out from R59's patterns and L2.1 -/

theorem test_decode_sys : decodeWord 0b0000000100100011#16 = some (.sys 0x123#12) := by decide
theorem test_decode_cls : decodeWord 0b0000000011100000#16 = some .cls := by decide
theorem test_decode_ret : decodeWord 0b0000000011101110#16 = some .ret := by decide
theorem test_decode_family0 :
    [0x0000#16, 0x00E1#16, 0x01EE#16].map decodeWord =
      [some (.sys 0x000#12), some (.sys 0x0E1#12), some (.sys 0x1EE#12)] := by decide
theorem test_decode_jp : decodeWord 0b0001101010111100#16 = some (.jp 0xABC#12) := by decide
theorem test_decode_call : decodeWord 0b0010001000010000#16 = some (.call 0x210#12) := by decide
theorem test_decode_seImm : decodeWord 0b0011001101000010#16 = some (.seImm 3 0x42#8) := by decide
theorem test_decode_sneImm : decodeWord 0b0100001101000010#16 = some (.sneImm 3 0x42#8) := by decide
theorem test_decode_seReg : decodeWord 0b0101000100100000#16 = some (.seReg 1 2) := by decide
theorem test_decode_sneReg : decodeWord 0b1001101010110000#16 = some (.sneReg 10 11) := by decide
theorem test_decode_ldImm : decodeWord 0b0110101000101011#16 = some (.ldImm 10 0x2B#8) := by decide
theorem test_decode_addImm : decodeWord 0b0111000100000011#16 = some (.addImm 1 0x03#8) := by decide
theorem test_decode_ldReg : decodeWord 0b1000000100100000#16 = some (.ldReg 1 2) := by decide
theorem test_decode_orReg : decodeWord 0b1000000100100001#16 = some (.orReg 1 2) := by decide
theorem test_decode_andReg : decodeWord 0b1000000100100010#16 = some (.andReg 1 2) := by decide
theorem test_decode_xorReg : decodeWord 0b1000000100100011#16 = some (.xorReg 1 2) := by decide
theorem test_decode_addReg : decodeWord 0b1000000100100100#16 = some (.addReg 1 2) := by decide
theorem test_decode_subReg : decodeWord 0b1000000100100101#16 = some (.subReg 1 2) := by decide
theorem test_decode_shr : decodeWord 0b1000000100100110#16 = some (.shr 1 2) := by decide
theorem test_decode_subnReg : decodeWord 0b1000000100100111#16 = some (.subnReg 1 2) := by decide
theorem test_decode_shl : decodeWord 0b1000000100101110#16 = some (.shl 1 2) := by decide
theorem test_decode_ldI : decodeWord 0b1010001000001100#16 = some (.ldI 0x20C#12) := by decide
theorem test_decode_jpV0 : decodeWord 0b1011001100000000#16 = some (.jpV0 0x300#12) := by decide
theorem test_decode_rnd : decodeWord 0b1100001100001111#16 = some (.rnd 3 0x0F#8) := by decide
theorem test_decode_drw : decodeWord 0b1101000100100011#16 = some (.drw 1 2 3#4) := by decide
theorem test_decode_skp : decodeWord 0b1110000110011110#16 = some (.skp 1) := by decide
theorem test_decode_sknp : decodeWord 0b1110000110100001#16 = some (.sknp 1) := by decide
theorem test_decode_ldKey : decodeWord 0b1111000100001010#16 = some (.ldKey 1) := by decide
theorem test_decode_ldFromDT : decodeWord 0b1111010100000111#16 = some (.ldFromDT 5) := by decide
theorem test_decode_ldDT : decodeWord 0b1111010100010101#16 = some (.ldDT 5) := by decide
theorem test_decode_ldST : decodeWord 0b1111001000011000#16 = some (.ldST 2) := by decide
theorem test_decode_addI : decodeWord 0b1111000100011110#16 = some (.addI 1) := by decide
theorem test_decode_ldF : decodeWord 0b1111000100101001#16 = some (.ldF 1) := by decide
theorem test_decode_ldB : decodeWord 0b1111000100110011#16 = some (.ldB 1) := by decide
theorem test_decode_storeRegs : decodeWord 0b1111000101010101#16 = some (.storeRegs 1) := by decide
theorem test_decode_loadRegs : decodeWord 0b1111000101100101#16 = some (.loadRegs 1) := by decide
/-- The unrecognized words L2.1 lists. -/
theorem test_decode_unrecognized :
    ([0x5121#16, 0x9AB5#16, 0x8128#16, 0x8129#16, 0x812A#16, 0x812B#16, 0x812C#16, 0x812D#16, 0x812F#16,
      0xE19F#16, 0xE1A0#16, 0xE100#16, 0xF100#16, 0xF108#16, 0xF1FF#16].all
      (fun w => decide (decodeWord w = none))) = true := by decide
theorem test_decode_bytes : decode [0xD1#8, 0x23#8, 0x77#8] = .ok (.drw 1 2 3#4, [0x77#8]) := by rfl
theorem test_decode_rejects_by_name :
    decode [0x51#8, 0x21#8] = .error (.unrecognized 0x5121#16) ∧ decode [0x51#8] = .error .truncated :=
  ⟨rfl, rfl⟩
theorem test_encode_bytes : encodeBytes (.drw 1 2 3#4) = [0xD1#8, 0x23#8] := by decide
theorem test_decodeTableWord : decodeTableWord 16 0xD123 = some (.drw 1 2 3#4) := by decide

/-! ## Flow (L2.2) -/

theorem test_sys : (stepOn 0x0123 (State.reset.setPc 0x300#16)).map (·.pc) = some 0x302#16 := by decide
theorem test_cls : (stepOn 0x00E0 (State.reset.setDisp (0x5#2048))).map (fun s => (s.disp, s.pc)) =
    some (0#2048, 0x202#16) := by decide +kernel
/-- L1.6: the return goes to the word after the call. -/
theorem test_call_then_ret :
    ((stepOn 0x2300 State.reset).bind (stepOn 0x00EE)).map (fun s => (s.pc, s.sp, s.stack.toList.head?)) =
      some (0x202#16, 0, some 0x202#16) := by decide
theorem test_ret_underflow :
    (stepOn 0x00EE State.reset).map (fun s => (s.halt, s.faultPc, s.faultOp, s.pc, s.sp)) =
      some (.stackUnderflow, 0x200#16, 0x00EE#16, 0x200#16, 0) := by decide
theorem test_jp : (stepOn 0x1ABC State.reset).map (·.pc) = some 0xABC#16 := by decide
theorem test_call : (stepOn 0x2300 State.reset).map (fun s => (s.pc, s.sp, s.stack.toList.head?)) =
    some (0x300#16, 1, some 0x202#16) := by decide
theorem test_call_overflow :
    (stepOn 0x2300 { State.reset with sp := 12 }).map (fun s => (s.halt, s.faultPc, s.faultOp, s.pc, s.sp)) =
      some (.stackOverflow, 0x200#16, 0x2300#16, 0x200#16, 12) := by decide

/-! ## Skips (L2.3) -/

theorem test_seImm : (stepOn 0x3342 (withV [(3, 0x42#8)])).map (·.pc) = some 0x204#16 := by decide
theorem test_seImm_not : (stepOn 0x3342 (withV [(3, 0x41#8)])).map (·.pc) = some 0x202#16 := by decide
theorem test_sneImm : (stepOn 0x4342 (withV [(3, 0x41#8)])).map (·.pc) = some 0x204#16 := by decide
theorem test_seReg : (stepOn 0x5010 (withV [(0, 5#8), (1, 5#8)])).map (·.pc) = some 0x204#16 := by decide
theorem test_seReg_not : (stepOn 0x5010 (withV [(0, 5#8), (1, 6#8)])).map (·.pc) = some 0x202#16 := by decide
theorem test_sneReg : (stepOn 0x9010 (withV [(0, 5#8), (1, 6#8)])).map (·.pc) = some 0x204#16 := by decide
theorem test_sneReg_same : (stepOn 0x9330 State.reset).map (·.pc) = some 0x202#16 := by decide

/-! ## Loads and arithmetic (L2.4) -/

theorem test_ldImm : regsOf (stepOn 0x6A2B State.reset) [10] = some [0x2B#8] := by decide
theorem test_addImm : regsOf (stepOn 0x7103 (withV [(1, 0xFE#8), (15, 0x77#8)])) [1, 15] = some [0x01#8, 0x77#8] := by
  decide
theorem test_addImm_vf : regsOf (stepOn 0x7F01 (withV [(15, 0xFF#8)])) [15] = some [0x00#8] := by decide
theorem test_ldReg : regsOf (stepOn 0x8120 (withV [(2, 7#8)])) [1, 2] = some [7#8, 7#8] := by decide
theorem test_orReg : regsOf (stepOn 0x8121 (withV [(1, 0x0F#8), (2, 0xF0#8), (15, 0x55#8)])) [1, 15] =
    some [0xFF#8, 0x55#8] := by decide
theorem test_andReg : regsOf (stepOn 0x8122 (withV [(1, 0x3C#8), (2, 0x0F#8)])) [1] = some [0x0C#8] := by decide
theorem test_xorReg : regsOf (stepOn 0x8123 (withV [(1, 0x3C#8), (2, 0x0F#8)])) [1] = some [0x33#8] := by decide
/-- L1.3. -/
theorem test_addReg : regsOf (stepOn 0x8124 (withV [(1, 250#8), (2, 10#8)])) [1, 15] = some [4#8, 1#8] := by decide
theorem test_addReg_vf : regsOf (stepOn 0x8F24 (withV [(15, 0x10#8), (2, 0x20#8)])) [15] = some [0x30#8] := by decide
/-- L1.4. -/
theorem test_subReg : regsOf (stepOn 0x8125 (withV [(1, 5#8), (2, 10#8)])) [1, 15] = some [251#8, 0#8] := by decide
theorem test_subReg_vf : regsOf (stepOn 0x81F5 (withV [(1, 0x10#8), (15, 0x05#8)])) [1, 15] = some [0x0F#8, 1#8] := by
  decide
theorem test_shr : regsOf (stepOn 0x8126 (withV [(1, 0x01#8), (2, 0xFF#8)])) [1, 15] = some [0x00#8, 1#8] := by decide
theorem test_shr_vf : regsOf (stepOn 0x8F06 (withV [(15, 0x03#8)])) [15] = some [0x00#8] := by decide
theorem test_subnReg : regsOf (stepOn 0x8127 (withV [(1, 10#8), (2, 5#8)])) [1, 15] = some [251#8, 0#8] := by decide
theorem test_subnReg_vf : regsOf (stepOn 0x8F27 (withV [(15, 0x05#8), (2, 0x10#8)])) [15] = some [0x0F#8] := by decide
theorem test_shl : regsOf (stepOn 0x8A0E (withV [(10, 0xFA#8)])) [10, 15] = some [0xF4#8, 1#8] := by decide
theorem test_shl_vf : regsOf (stepOn 0x8F0E (withV [(15, 0x81#8)])) [15] = some [0x02#8] := by decide
/-- The alternative order of R90, on 8F25 and 81F5 (L2.4's last column). -/
theorem test_flagLast :
    (((withV [(15, 0x10#8), (2, 0x05#8)]).writeFlagged .flagLast 15
        (fun t => noBorrow (t.getV 15) (t.getV 2)) (fun t => diff8 (t.getV 15) (t.getV 2))).getV 15 = 1#8) ∧
      (((withV [(1, 0x10#8), (15, 0x05#8)]).writeFlagged .flagLast 1
        (fun t => noBorrow (t.getV 1) (t.getV 15)) (fun t => diff8 (t.getV 1) (t.getV 15))).getV 1 = 0x0B#8) := by
  decide

/-! ## Index, indexed jump, random (L2.5) -/

theorem test_ldI : (stepOn 0xA20C State.reset).map (·.I) = some 0x20C#16 := by decide
theorem test_jpV0 : (stepOn 0xBFFF (withV [(0, 0xFF#8)])).map (·.pc) = some 0x10FE#16 := by decide
/-- Always V0, whatever the X field holds. -/
theorem test_jpV0_not_V1 : (stepOn 0xB123 (withV [(1, 0x50#8)])).map (·.pc) = some 0x123#16 := by decide
/-- A mask of 0 gives 0 whatever the draw, and the draw is counted. -/
theorem test_rnd_mask0 : stepOn 0xC300 State.reset =
    some ({ (State.reset.withFetchWord 16 0xC300).advance with draws := 1 }.setV 3 (Config.randomByte 0 &&& 0#8)) := by
  rfl

/-- R104's example on R34's record: the draw 0xA7 masked by 0x0F. -/
theorem test_record_rnd :
    ((State.reset.withFetchWord 16 0xC30F).toCoreRecord.step ⟨0xA7#8, false⟩).V[3] = 0x07#8 := by decide
/-- R110: a value that names no key skips when the draw says pressed, and not otherwise. -/
theorem test_record_skp :
    ((((withV [(0, 16#8)]).withFetchWord 16 0xE09E).toCoreRecord.step ⟨0#8, true⟩).pc,
      (((withV [(0, 16#8)]).withFetchWord 16 0xE09E).toCoreRecord.step ⟨0#8, false⟩).pc) = (0x204#16, 0x202#16) := by
  decide

/-! ## Draw (L2.6) -/

/-- D-1: glyph 0 at the origin. -/
theorem test_drw_glyph0 : (stepOn 0xD015 State.reset).map (fun s => (onCells s 300, s.getV 15, s.I)) =
    some ([0, 1, 2, 3, 64, 67, 128, 131, 192, 195, 256, 257, 258, 259], 0#8, 0#16) := by decide +kernel
/-- D-10: row 1 would be read at 0x1000, so nothing is drawn. -/
theorem test_drw_fault : (stepOn 0xD012 ((withV [(1, 30#8)]).setI 0xFFF#16)).map (fun s => (s.halt, s.faultOp, s.disp)) =
    some (.memoryBounds, 0xD012#16, 0#2048) := by decide +kernel

/-! ## Keypad (L2.7) -/

theorem test_skp : (stepOn 0xE09E ((withV [(0, 7#8)]).setKey 0x0080#16)).map (·.pc) = some 0x204#16 := by decide
theorem test_skp_not : (stepOn 0xE09E (withV [(0, 7#8)])).map (·.pc) = some 0x202#16 := by decide
theorem test_sknp : (stepOn 0xE0A1 (withV [(0, 7#8)])).map (·.pc) = some 0x204#16 := by decide
theorem test_sknp_not : (stepOn 0xE0A1 ((withV [(0, 7#8)]).setKey 0x0080#16)).map (·.pc) = some 0x202#16 := by decide
theorem test_ldKey_waits : (stepOn 0xF30A State.reset).map (fun s => (s.pc, s.awaitingKey, s.getV 3)) =
    some (0x200#16, true, 0#8) := by decide
theorem test_ldKey_lowest :
    (stepOn 0xF30A ((State.reset.setKey 0x0204#16).setAwaiting true)).map (fun s => (s.getV 3, s.pc, s.awaitingKey)) =
      some (2#8, 0x202#16, false) := by decide

/-! ## Timers and index arithmetic (L2.8) -/

theorem test_ldFromDT : regsOf (stepOn 0xF507 (State.reset.setDT 0x3C#8)) [5] = some [0x3C#8] := by decide
theorem test_ldDT : (stepOn 0xF515 (withV [(5, 0x3C#8)])).map (·.DT) = some 0x3C#8 := by decide
theorem test_ldST : (stepOn 0xF218 (withV [(2, 0x05#8)])).map (fun s => (s.ST, s.tone)) = some (5#8, true) := by decide
theorem test_addI : (stepOn 0xF11E ((withV [(1, 0x02#8)]).setI 0x0FFF#16)).map (fun s => (s.I, s.getV 15)) =
    some (0x1001#16, 0#8) := by decide
theorem test_addI_wraps : (stepOn 0xF11E ((withV [(1, 0x01#8)]).setI 0xFFFF#16)).map (·.I) = some 0x0000#16 := by decide
theorem test_ldF : (stepOn 0xF029 (withV [(0, 0xFF#8)])).map (·.I) = some 0x04FB#16 := by decide

/-! ## Memory store and load (L2.9) -/

theorem test_ldB : bytesOf (stepOn 0xF033 ((withV [(0, 0xFE#8)]).setI 0x300#16)) 0x300 3 =
    some [0x02#8, 0x05#8, 0x04#8] := by decide
theorem test_ldB_fault : (stepOn 0xF033 ((withV [(0, 123#8)]).setI 0xFFE#16)).map (fun s => (s.halt, s.byteAt 0xFFE)) =
    some (.memoryBounds, 0#8) := by decide
theorem test_storeRegs :
    (stepOn 0xF255 ((withV [(0, 1#8), (1, 2#8), (2, 3#8), (3, 4#8)]).setI 0x300#16)).map
      (fun s => ((List.range 4).map (fun k => s.byteAt (0x300 + k)), s.I)) =
      some ([1#8, 2#8, 3#8, 0#8], 0x300#16) := by decide
theorem test_storeRegs_fault :
    (stepOn 0xFF55 ((withV [(0, 9#8)]).setI 0xFF1#16)).map (fun s => (s.halt, s.byteAt 0xFF1)) =
      some (.memoryBounds, 0#8) := by decide
/-- The first 16 bytes of the font. -/
theorem test_loadRegs : regsOf (stepOn 0xFF65 State.reset) allRegs =
    some [0xF0, 0x90, 0x90, 0x90, 0xF0, 0x20, 0x60, 0x20, 0x20, 0x70, 0xF0, 0x10, 0xF0, 0x80, 0xF0, 0xF0] := by decide
/-- `P_LS_I = increment`, the alternative: 0xF155 at `I = 0x300` leaves `I = 0x302`. -/
theorem test_indexAfter_increment : indexAfter .increment 0x300#16 1 = 0x302#16 := by decide

/-! ## Execution cycle, events (L2.10) -/

/-- X-1. -/
theorem test_top_of_memory : (stepOn 0x6007 (State.reset.setPc 0xFFE#16)).map (fun s => (s.getV 0, s.pc)) =
    some (7#8, 0x1000#16) := by decide
/-- X-2. -/
theorem test_fetch_fault : (next? (step (State.reset.setPc 0xFFF#16))).map (fun s => (s.halt, s.faultPc, s.faultOp, s.pc)) =
    some (.memoryBounds, 0xFFF#16, 0#16, 0xFFF#16) := by decide
theorem test_unrecognized : (stepOn 0x5121 State.reset).map (·.pc) = some 0x202#16 ∧
    (State.reset.withFetchWord 16 0x5121).diagnostic = some (0x200#16, 0x5121#16) := by decide
/-- X-9: an odd `pc` under `P_ODD_PC = fault`. -/
theorem test_odd_pc_fault : fetchWord .fault .fault State.reset.mem 0x201 = none := by decide
/-- X-10: the fetch at 0xFFF under `P_ADDR_OOB = wrap12`. -/
theorem test_fetch_wraps : fetchWord .wrap12 .fetch [(0xFFF, 0x60#8)] 0xFFF = some 0x60F0#16 := by decide
theorem test_tick_stops_at_zero : ((State.reset.setST 1#8).tick.DT, (State.reset.setST 1#8).tick.ST) = (0#8, 0#8) := by decide
theorem test_tick_paused : (State.reset.setDT 5#8).pause.tick.DT = 5#8 := by decide
/-- X-6. -/
theorem test_reset_rom : (State.reset.initialise [0x12#8, 0x00#8]).mem = [(0x200, 0x12#8)] := by decide
/-- X-8. -/
theorem test_reset_too_large :
    (State.reset.initialise (List.replicate 3585 1#8)).halt = .romTooLarge ∧
      (State.reset.initialise (List.replicate 3585 1#8)).mem = [] := by decide +kernel

/-! ## Witnesses: for each statement with hypotheses, states and operands that meet them all; for one with several
clauses, each clause at a boundary of its range -/

/-- The reset state about to run a word. -/
def ready (w : Nat) : State := State.reset.withFetchWord 16 w

theorem test_wit_DecodeOfEncodeIsTheInstruction :
    (Instr.sys 0xFFF#12).WellFormed ∧ (Instr.drw 15 0 15#4).WellFormed := by decide
theorem test_wit_EncodeOfDecodeIsTheWord : decodeWord 0xFFFF#16 = none ∧ decodeWord 0xFF65#16 = some (.loadRegs 15) := by
  decide
theorem test_wit_NoWordMatchesTwoRows :
    ∃ r r' : OpcodeRow, r ∈ opcodeMap ∧ r' ∈ opcodeMap ∧ r.accepts 0x00EE#16 = true ∧ r'.accepts 0x00EE#16 = true :=
  ⟨opcodeMap[2], opcodeMap[2], by decide, by decide, by decide, by decide⟩
/-- `pc` at 0x200 and at 0xFFE, the last address a word fits at. -/
theorem test_wit_StepRunsDecodedInstruction : ∀ s ∈ [ready 0x6007, (State.reset.setPc 0xFFE#16).withFetchWord 16 0x6007],
    s.runState = .running ∧ s.halt = .none ∧ s.pc.toNat + 1 < 4096 ∧
      decodeWord (wordOfBytes (s.byteAt s.pc.toNat) (s.byteAt (s.pc.toNat + 1))) = some (.ldImm 0 7#8) := by decide
theorem test_wit_UnrecognizedWordOnlyAdvances : ∀ s ∈ [ready 0x5121, ready 0xFFFF],
    s.runState = .running ∧ s.halt = .none ∧ s.pc.toNat + 1 < 4096 ∧
      decodeWord (wordOfBytes (s.byteAt s.pc.toNat) (s.byteAt (s.pc.toNat + 1))) = none := by decide
theorem test_wit_FetchOutsideMemoryFaults : ∀ s ∈ [State.reset.setPc 0xFFF#16, State.reset.setPc 0xFFFF#16],
    s.runState = .running ∧ s.halt = .none ∧ 0x0FFF ≤ s.pc.toNat := by decide
theorem test_wit_StepIgnoredWhilePausedOrHalted : ∀ s ∈ [State.reset.pause, { State.reset with halt := .memoryBounds }],
    s.runState = .paused ∨ s.halt ≠ .none := by decide
/-- A fault in execution, and one in the fetch. -/
theorem test_wit_FaultingStepIsUndone :
    (∃ t, (ready 0x00EE).halt = .none ∧ step (ready 0x00EE) = .next t ∧ t.halt ≠ .none ∧
      (ready 0x00EE).pc.toNat + 1 < 4096) ∧
    (∃ t, step (State.reset.setPc 0xFFF#16) = .next t ∧ t.halt ≠ .none ∧
      4096 ≤ (State.reset.setPc 0xFFF#16).pc.toNat + 1) :=
  ⟨⟨_, rfl, rfl, by decide, by decide⟩, ⟨_, rfl, by decide, by decide⟩⟩
/-- Each kind of fault, and none: a call with room for one more, a return with one to pop, bytes up to 0xFFF. -/
theorem test_wit_StepFaultsExactlyWhen :
    (∀ s ∈ [ready 0x2300, { ready 0x2300 with sp := 11 }, { ready 0x00EE with sp := 1 }, (ready 0xF033).setI 0xFFD#16,
        (ready 0xFF55).setI 0xFF0#16, (ready 0xFF65).setI 0xFF0#16],
      s.runState = .running ∧ s.halt = .none ∧ (next? (step s)).map (·.halt) = some .none) ∧
    (∀ p ∈ [({ ready 0x2300 with sp := 12 }, HaltCode.stackOverflow), (ready 0x00EE, .stackUnderflow),
        ((ready 0xF033).setI 0xFFE#16, .memoryBounds), ((ready 0xFF55).setI 0xFF1#16, .memoryBounds),
        ((ready 0xFF65).setI 0xFF1#16, .memoryBounds), (State.reset.setPc 0x1000#16, .memoryBounds)],
      p.1.runState = .running ∧ p.1.halt = .none ∧ (next? (step p.1)).map (·.halt) = some p.2) := by decide
theorem test_wit_ParkedStepChangesNothing : (ready 0x1200).Parked ∧ (State.reset.pause.setMem [(0x200, 0x12#8)]).Parked :=
  ⟨⟨by unfold State.Fetchable; decide, 0x200#12, by decide, by decide⟩,
    ⟨by unfold State.Fetchable; decide, 0x200#12, by decide, by decide⟩⟩
/-- A ROM of two bytes, and the longest that fits. -/
theorem test_wit_FirstStepRunsFirstRomWord :
    ([0x60#8, 0x07#8].length ≤ 3584 ∧ decodeWord (wordOfBytes 0x60#8 0x07#8) = some (.ldImm 0 7#8)) ∧
      (0x60#8 :: 0x07#8 :: List.replicate 3582 0#8).length ≤ 3584 := ⟨by decide, by simp only [List.length_cons, List.length_replicate]; decide⟩

theorem reset_inv : State.reset.Inv where
  memCanonical := rfl
  waitsAtKeyWord := fun h => nomatch h
  addressesBounded := ⟨by decide, fun k _ hk => absurd hk (by simp [State.reset])⟩
  recordClear := fun _ => ⟨rfl, rfl⟩
  recordFits := ⟨fun h => by simp [State.reset] at h, fun h => nomatch h⟩

theorem test_wit_StepKeepsInvariant : State.reset.Inv ∧ ∃ t, step State.reset = .next t := ⟨reset_inv, _, rfl⟩
theorem test_wit_EveryScheduleKeepsInvariant : State.reset.Inv := reset_inv

/-- Every instruction in every state answers a next state: a call, a return, FX0A, a draw and a store among them. -/
theorem test_wit_frames : ∀ i ∈ [Instr.call 0x300#12, .ret, .cls, .drw 0 1 5#4, .ldKey 0, .ldDT 0, .ldST 0, .addI 0,
    .storeRegs 15, .loadRegs 15, .sys 0x123#12], ∃ t, exec i State.reset = .next t := fun i _ => exec_answers_next i _
/-- An address that FX33 does not store to, just past the three bytes, and one that it does. -/
theorem test_wit_OnlyStoredBytesChange :
    ¬ stores (.ldB 0) (State.reset.setI 0x300#16) 0x303 ∧ ¬ stores (.storeRegs 2) (State.reset.setI 0x300#16) 0x303 ∧
      stores (.ldB 0) (State.reset.setI 0x300#16) 0x302 ∧ ¬ stores .cls State.reset 0x300 := by
  refine ⟨?_, ?_, ?_, id⟩ <;> simp [stores]
/-- The clauses of the whole-machine rules that exclude an instruction: each has instructions left. -/
theorem test_wit_whole_machine_clauses :
    (∀ nnn, Instr.ret ≠ .call nnn) ∧ (∃ nnn, Instr.call 0x300#12 = .call nnn) ∧ Instr.cls ≠ .ret ∧
      Instr.ret ≠ .cls ∧ (∀ x y n, Instr.ret ≠ .drw x y n) ∧ (∀ x, Instr.ret ≠ .ldDT x) ∧ (∀ x, Instr.ret ≠ .ldST x) ∧
      (∀ nnn, Instr.ret ≠ .ldI nnn) ∧ (∀ x, Instr.ret ≠ .addI x) ∧ (∀ x, Instr.ret ≠ .ldF x) ∧
      (∀ x, Instr.ret ≠ .ldKey x) ∧ (∃ x, Instr.ldST 3 = .ldST x) := by
  simp
/-- An instruction after which there is still no fault (the last clause of HostStateIsReadOnlyToInstructions). -/
theorem test_wit_HostStateIsReadOnlyToInstructions :
    ∃ t, exec .cls State.reset = .next t ∧ t.halt = State.reset.halt ∧ State.reset.halt = .none := ⟨_, rfl, rfl, rfl⟩
/-- Two states that differ in an entry no open call uses; RET then reads the one below it. -/
theorem test_wit_DeadStackEntriesAreNeverRead :
    SameUpToDeadStack { State.reset with sp := 1 } { State.reset with sp := 1, stack := State.reset.stack.set 1 0x345#16 } ∧
      (∃ t, exec .ret { State.reset with sp := 1 } = .next t) := by
  refine ⟨⟨?_, rfl, rfl, ?_⟩, exec_answers_next _ _⟩
  · intro p hp
    cases p <;> first | rfl | exact fun _ => rfl | exact ⟨rfl, rfl, rfl⟩ | exact absurd (by decide) hp
  · intro k h hk
    have : k = 0 := by simpa using hk
    subst this; rfl
theorem test_wit_AwaitingChangesOnlyAtKeyWaitOrReset :
    (∃ t, State.reset.apply .tick = .next t) ∧ (∀ rom, Event.tick ≠ .reset rom) ∧
      (∃ t, (ready 0x00E0).apply .step = .next t) ∧ (∀ x, decodeWord (ready 0x00E0).nextWord ≠ some (.ldKey x)) :=
  ⟨⟨_, rfl⟩, by simp, ⟨_, rfl⟩, by decide⟩

/-- One entry in use, all 12, and none. -/
theorem test_wit_ReturnPopsTheLastAddress :
    ({ State.reset with sp := 1 } : State).sp.val = 0 + 1 ∧ ({ State.reset with sp := 12 } : State).sp.val = 11 + 1 ∧
      State.reset.sp = 0 := by decide
/-- No entry in use, 11 and 12. -/
theorem test_wit_CallPushesReturnAddressAndJumps :
    State.reset.sp.val < 12 ∧ ({ State.reset with sp := 11 } : State).sp.val < 12 ∧
      ({ State.reset with sp := 12 } : State).sp = 12 := by decide
theorem test_wit_ReturnUndoesCall : ({ State.reset with sp := 11 } : State).sp.val < 12 ∧
    ∃ t, exec (.call 0x300#12) { State.reset with sp := 11 } = .next t := ⟨by decide, exec_answers_next _ _⟩
/-- `x` other than `VF` and `x = VF`; for two operands, neither is `VF`. -/
theorem test_wit_flag_statements : (14 : Reg) ≠ VF ∧ (15 : Reg) = VF ∧ (0 : Reg) ≠ VF := by decide

/-- Address 0xFFF in one row; 15 rows at row 31, of which only the one at 0xFFF is drawn; no row at all. -/
theorem test_wit_SpriteFits :
    SpriteFits (State.reset.setI 0xFFF#16) 1 1#4 ∧ SpriteFits ((withV [(1, 31#8)]).setI 0xFFF#16) 1 15#4 ∧
      SpriteFits (State.reset.setI 0xFFFF#16) 1 0#4 := by
  refine ⟨?_, ?_, ?_⟩ <;> intro k hk hr
  · have e : k < 1 := hk
    show 4095 + k < 4096
    omega
  · have e : 31 % 32 + k < 32 := hr
    show 4095 + k < 4096
    omega
  · exact absurd hk (Nat.not_lt_zero k)
/-- Row 1 at 0x1000 is drawn from row 30. -/
theorem test_wit_DrawOutsideMemoryFaults : ¬ SpriteFits ((withV [(1, 30#8)]).setI 0xFFF#16) 1 2#4 :=
  fun h => absurd (h 1 (by decide) (by decide)) (by decide)
/-- Glyph 0 at the origin of an empty display and of one whose cell 0 is on. -/
theorem test_wit_DrawXorsTheSprite :
    ¬ Collides State.reset 0 1 5#4 ∧ Collides (State.reset.setDisp 1#2048) 0 1 5#4 := by
  refine ⟨?_, 0, 0, by decide, by decide, by decide +kernel, by decide +kernel⟩
  rintro ⟨col, row, -, -, -, h⟩
  simp [State.cell, State.reset] at h
theorem test_wit_DrawingTwiceRestoresTheDisplay : (0 : Reg) ≠ VF ∧ (1 : Reg) ≠ VF ∧ SpriteFits State.reset 1 5#4 ∧
    (∃ t, exec (.drw 0 1 5#4) State.reset = .next t) ∧ ¬ Collides State.reset 0 1 5#4 ∧
      (∃ col row, col < 64 ∧ row < 32 ∧ spriteBit State.reset 0 1 5#4 col row = true) := by
  refine ⟨by decide, by decide, ?_, exec_answers_next _ _, test_wit_DrawXorsTheSprite.1,
    0, 0, by decide, by decide, by decide⟩
  intro k hk _
  have e : k < 5 := hk
  show 0 + k < 4096
  omega

/-- The last value that names a key, the first that names none, and the largest. -/
theorem test_wit_KeySkipsReadTheNamedKey : ((withV [(0, 15#8)]).getV 0).toNat < 16 ∧
    16 ≤ ((withV [(0, 16#8)]).getV 0).toNat ∧ 16 ≤ ((withV [(0, 255#8)]).getV 0).toNat := by decide
/-- Key 0 alone, key 15 alone, keys 2 and 9, and none. -/
theorem test_wit_KeyWaitTakesTheLeastKeyOrWaits :
    [((0x0001#16 : BitVec 16), (0 : Reg)), (0x8000#16, 15), (0x0204#16, 2)].all (fun p =>
      (State.reset.setKey p.1).key.getLsbD p.2.val &&
        allRegs.all (fun j => decide (j < p.2 → (State.reset.setKey p.1).key.getLsbD j.val = false))) = true ∧
    (∀ j : Reg, State.reset.key.getLsbD j.val = false) := by decide
/-- The last byte at 0xFFF, and at 0x1000; a register named and one past it. -/
theorem test_wit_memory_operations :
    (State.reset.setI 0xFFD#16).I.toNat + 2 < 4096 ∧ 4096 ≤ (State.reset.setI 0xFFE#16).I.toNat + 2 ∧
      (State.reset.setI 0xFF0#16).I.toNat + (15 : Reg).val < 4096 ∧
      4096 ≤ (State.reset.setI 0xFF1#16).I.toNat + (15 : Reg).val ∧
      (State.reset.setI 0xFFF#16).I.toNat + (0 : Reg).val < 4096 ∧ (3 : Reg) ≤ 3 ∧ (3 : Reg) < 4 := by decide
/-- Running, and the two cases in which a tick does nothing; a sound timer at 1 and at 2. -/
theorem test_wit_TickCountsTimersDown :
    ((State.reset.setST 2#8).runState = .running ∧ (State.reset.setST 2#8).halt = .none ∧
      (State.reset.setST 2#8).tick.tone = true ∧ (State.reset.setST 1#8).tick.tone = false) ∧
    (State.reset.pause.runState = .paused ∧ ({ State.reset with halt := .romTooLarge } : State).halt ≠ .none) := by decide
/-- No ROM, the longest that fits, one byte more, and the longest the ports carry. -/
theorem test_wit_ResetInitialisesTheWholeState :
    ([] : List Byte).length ≤ 3584 ∧ (List.replicate 3584 1#8).length ≤ 3584 ∧ 3584 < (List.replicate 3585 1#8).length ∧
      ∀ n ∈ [0, 3584, 3585, 4095], ∃ r : Rom, r.bytes = List.replicate n 1#8 := by
  refine ⟨by decide, by simp only [List.length_replicate]; decide, by simp only [List.length_replicate]; decide, ?_⟩
  intro n hn
  have h : n < 4096 := by simp only [List.mem_cons, List.not_mem_nil, or_false] at hn; omega
  exact ⟨⟨List.replicate n 1#8, by rw [List.length_replicate]; exact h⟩, rfl⟩
/-- The port's 12 bits hold the number of bytes of a ROM (R79). -/
theorem test_rom_len : (⟨[0x12#8, 0x00#8], by decide⟩ : Rom).len = 2#12 := by decide

end Sys2Proof.Tests
end

section
/-! SUPPORT. The decoder drops no bit: a word is the word of the instruction it decodes to (30_encoding.md R56 to
R59), family by family. It gives the "only if" of every row of the opcode map. -/

namespace Sys2Proof

variable {op : Word} {i : Instr} {f n : Nibble} {nn : Byte}

/-! ## A word from its family and its selector -/

theorem wordNNN_of_top (hf : (fieldTop op).toNat = f.toNat) : wordNNN f (fieldNNN op) = op := by
  rw [← BitVec.eq_of_toNat_eq hf, wordNNN_fields]

theorem wordXNN_of_top (hf : (fieldTop op).toNat = f.toNat) : wordXNN f (fieldX op) (fieldNN op) = op := by
  rw [← BitVec.eq_of_toNat_eq hf, wordXNN_fields]

theorem wordXNN_of_top_nn (hf : (fieldTop op).toNat = f.toNat) (hnn : fieldNN op = nn) :
    wordXNN f (fieldX op) nn = op := by
  rw [← hnn, wordXNN_of_top hf]

theorem wordXYN_of_top (hf : (fieldTop op).toNat = f.toNat) :
    wordXYN f (fieldX op) (fieldY op) (fieldN op) = op := by
  rw [← BitVec.eq_of_toNat_eq hf, wordXYN_fields]

theorem wordXYN_of_top_n (hf : (fieldTop op).toNat = f.toNat) (hn : fieldN op = n) :
    wordXYN f (fieldX op) (fieldY op) n = op := by
  rw [← hn, wordXYN_of_top hf]

/-- The mask of a family nibble keeps the family. -/
theorem fieldTop_of_and_maskTop {p : Word} (h : op &&& 0xF000#16 = p) : fieldTop op = fieldTop p := by
  rw [← h, and_maskTop]
  exact (fieldTop_wordNNN (fieldTop op) 0#12).symm

/-! ## The families with a selector -/

theorem encode_decodeFamily0 (ht : (fieldTop op).toNat = 0x0) : encode (decodeFamily0 op) = op := by
  unfold decodeFamily0
  split_ifs with hcls hret
  · exact hcls.symm
  · exact hret.symm
  · exact wordNNN_of_top ht

theorem encode_of_decodeFamily8 (ht : (fieldTop op).toNat = 0x8) (h : decodeFamily8 op = some i) : encode i = op := by
  unfold decodeFamily8 at h
  split at h <;> cases h <;> exact wordXYN_of_top_n ht (BitVec.eq_of_toNat_eq (by assumption))

theorem encode_of_decodeFamilyE (ht : (fieldTop op).toNat = 0xE) (h : decodeFamilyE op = some i) : encode i = op := by
  unfold decodeFamilyE at h
  split_ifs at h <;> cases h <;> exact wordXNN_of_top_nn ht (by assumption)

theorem encode_of_decodeFamilyF (ht : (fieldTop op).toNat = 0xF) (h : decodeFamilyF op = some i) : encode i = op := by
  unfold decodeFamilyF at h
  split_ifs at h <;> cases h <;> exact wordXNN_of_top_nn ht (by assumption)

/-- Families 5 and 9: a row of its own only where `N = 0`. -/
theorem encode_of_zeroN {j : Instr} (hj : fieldN op = 0#4 → encode j = op)
    (h : (if fieldN op = 0#4 then some j else none) = some i) : encode i = op := by
  split_ifs at h with hn
  cases h
  exact hj hn

/-! ## Every word -/

/-- A word that decodes is the word of the instruction it decodes to. -/
theorem encode_of_decodeWord (h : decodeWord op = some i) : encode i = op := by
  unfold decodeWord at h
  split at h <;> rename_i ht
  · cases h; exact encode_decodeFamily0 ht
  · cases h; exact wordNNN_of_top ht
  · cases h; exact wordNNN_of_top ht
  · cases h; exact wordXNN_of_top ht
  · cases h; exact wordXNN_of_top ht
  · exact encode_of_zeroN (wordXYN_of_top_n ht) h
  · cases h; exact wordXNN_of_top ht
  · cases h; exact wordXNN_of_top ht
  · exact encode_of_decodeFamily8 ht h
  · exact encode_of_zeroN (wordXYN_of_top_n ht) h
  · cases h; exact wordNNN_of_top ht
  · cases h; exact wordNNN_of_top ht
  · cases h; exact wordXNN_of_top ht
  · cases h; exact wordXYN_of_top ht
  · exact encode_of_decodeFamilyE ht h
  · exact encode_of_decodeFamilyF ht h
  · cases h

/-- Every word of family 1 is JP (R59). -/
theorem decodeWord_of_top_1 (h : fieldTop op = 0x1#4) : decodeWord op = some (.jp (fieldNNN op)) := by
  unfold decodeWord
  rw [h]
  rfl

end Sys2Proof
end

section
/-! SUPPORT. The frames of the single updates, in the terms of the statements; and the meanings of CLS and JP as
updates of the state (41_flow.md R82, R84). -/

namespace Sys2Proof.Machine

variable (s : State)

/-! ## The meanings -/

theorem exec_cls : exec .cls s = .next (s.setDisp 0#2048) := by rfl

theorem exec_jp (nnn : Imm12) : exec (.jp nnn) s = .next (s.setPc (immWord nnn)) := by rfl

/-- On the display whose bits are all 0, every cell is off. -/
theorem setDisp_zero_cell (col row : Nat) : (s.setDisp 0#2048).cell col row = false := by
  simp [State.cell]

/-- An address immediate is zero-extended: it keeps its value (R54). -/
@[simp] theorem immWord_toNat (nnn : Imm12) : (immWord nnn).toNat = nnn.toNat :=
  BitVec.toNat_setWidth_of_le (by decide)

end Sys2Proof.Machine

namespace Sys2Proof.Claims

open Sys2Proof.Machine

variable (s : State)

/-! ## What an update leaves the same -/

theorem sameBut_setDisp (d : BitVec 2048) : SameBut [.disp] s (s.setDisp d) := by
  intro p hp
  cases p
  case disp => exact absurd List.mem_cons_self hp
  all_goals simp [Part.same]

theorem sameBut_setPc (v : Word) : SameBut [.pc] s (s.setPc v) := by
  intro p hp
  cases p
  case pc => exact absurd List.mem_cons_self hp
  all_goals simp [Part.same]

/-! ## The rows -/

/-- CLS is the one word 0x00E0. -/
theorem row_cls : Row 0xFFFF#16 0x00E0#16 (fun _ => .cls) := by
  intro op
  constructor
  · intro h
    rw [show (0xFFFF#16 : Word) = BitVec.allOnes 16 from rfl, BitVec.and_allOnes] at h
    rw [h]
    decide
  · intro h
    rw [← encode_of_decodeWord h]
    exact Laws.EncodesItsRow.cls rfl

/-- JP is family 1, with its address in the low 12 bits. -/
theorem row_jp : Row 0xF000#16 0x1000#16 (fun op => .jp (fieldNNN op)) := by
  intro op
  constructor
  · intro h
    exact decodeWord_of_top_1 (fieldTop_of_and_maskTop h)
  · intro h
    rw [← encode_of_decodeWord h]
    exact Laws.EncodesItsRow.jp _ rfl

end Sys2Proof.Claims
end

section
/-! THE STATEMENTS OF 41_flow.md: clear and jump. -/

namespace Sys2Proof.Claims

open Sys2Proof.Machine

/-- Settles O29: CLS replaces the display by the one whose bits are all 0 (R82). -/
theorem clearTurnsEveryCellOff : Obligations.ClearTurnsEveryCellOff :=
  ⟨row_cls, fun s => ⟨s.setDisp 0#2048, exec_cls s, fun col row _ _ => setDisp_zero_cell s col row,
    sameBut_setDisp s 0#2048⟩⟩

/-- Settles O31: JP replaces `pc` by the zero-extended address (R84). -/
theorem jumpSetsPc : Obligations.JumpSetsPc :=
  ⟨row_jp, fun nnn s => ⟨s.setPc (immWord nnn), exec_jp s nnn, immWord_toNat nnn, sameBut_setPc s (immWord nnn)⟩⟩

end Sys2Proof.Claims
end

section
/-! SUPPORT. The mask of the family and the last nibble, read back; and the words of families 3, 4, 5 and 9
(30_encoding.md R59). -/

namespace Sys2Proof

variable {op : Word}

theorem fieldTop_and (a b : Word) : fieldTop (a &&& b) = fieldTop a &&& fieldTop b := BitVec.extractLsb'_and

theorem fieldN_and (a b : Word) : fieldN (a &&& b) = fieldN a &&& fieldN b := BitVec.extractLsb'_and

/-- The mask of the family nibble and `N` keeps the family. -/
theorem fieldTop_of_and_maskTopN {p : Word} (h : op &&& 0xF00F#16 = p) : fieldTop op = fieldTop p := by
  rw [← h, fieldTop_and]
  exact BitVec.and_allOnes.symm

/-- The mask of the family nibble and `N` keeps `N`. -/
theorem fieldN_of_and_maskTopN {p : Word} (h : op &&& 0xF00F#16 = p) : fieldN op = fieldN p := by
  rw [← h, fieldN_and]
  exact BitVec.and_allOnes.symm

theorem decodeWord_of_top_3 (h : fieldTop op = 0x3#4) : decodeWord op = some (.seImm (fieldX op) (fieldNN op)) := by
  unfold decodeWord
  rw [h]
  rfl

theorem decodeWord_of_top_4 (h : fieldTop op = 0x4#4) : decodeWord op = some (.sneImm (fieldX op) (fieldNN op)) := by
  unfold decodeWord
  rw [h]
  rfl

theorem decodeWord_of_top_5 (h : fieldTop op = 0x5#4) (hn : fieldN op = 0#4) :
    decodeWord op = some (.seReg (fieldX op) (fieldY op)) := by
  unfold decodeWord
  rw [h]
  exact if_pos hn

theorem decodeWord_of_top_9 (h : fieldTop op = 0x9#4) (hn : fieldN op = 0#4) :
    decodeWord op = some (.sneReg (fieldX op) (fieldY op)) := by
  unfold decodeWord
  rw [h]
  exact if_pos hn

end Sys2Proof
end

section
/-! SUPPORT. The meanings of the four register skips as one update of the state, a skip on a condition
(42_skips.md R86 to R89), and what such a skip does in the terms of the statements. -/

namespace Sys2Proof.Machine

variable (x y : Reg) (nn : Byte) (s : State)

theorem exec_seImm : exec (.seImm x nn) s = .next (s.skipIf (decide (s.getV x = nn))) := by rfl

theorem exec_sneImm : exec (.sneImm x nn) s = .next (s.skipIf (decide (s.getV x ≠ nn))) := by rfl

theorem exec_seReg : exec (.seReg x y) s = .next (s.skipIf (decide (s.getV x = s.getV y))) := by rfl

theorem exec_sneReg : exec (.sneReg x y) s = .next (s.skipIf (decide (s.getV x ≠ s.getV y))) := by rfl

theorem State.skipIf_decide_pc (c : Prop) [Decidable c] :
    (s.skipIf (decide c)).pc = if c then s.pc + 2#16 else s.pc := by
  simp only [State.skipIf_pc, decide_eq_true_eq]

theorem State.skipIf_decide_not_pc (c : Prop) [Decidable c] :
    (s.skipIf (decide ¬c)).pc = if c then s.pc else s.pc + 2#16 := by
  rw [State.skipIf_decide_pc, ite_not]

end Sys2Proof.Machine

namespace Sys2Proof.Claims

open Sys2Proof.Machine

theorem sameBut_skipIf (s : State) (c : Bool) : SameBut [.pc] s (s.skipIf c) := by
  rw [State.skipIf_eq]
  exact sameBut_setPc s _

/-- An instruction has its row when every word of the row decodes to it and its word has the row's fixed bits. The
converse half of the row is that the decoder drops no bit. -/
theorem row_of_decode_of_encode {mask pattern : Word} {f : Word → Instr}
    (hdec : ∀ op, op &&& mask = pattern → decodeWord op = some (f op))
    (henc : ∀ op, encode (f op) &&& mask = pattern) : Row mask pattern f := by
  intro op
  constructor
  · exact hdec op
  · intro h
    have hbits := henc op
    rwa [encode_of_decodeWord h] at hbits

/-! ## The rows -/

theorem row_seImm : Row 0xF000#16 0x3000#16 (fun op => .seImm (fieldX op) (fieldNN op)) :=
  row_of_decode_of_encode (fun _ h => decodeWord_of_top_3 (fieldTop_of_and_maskTop h))
    (fun _ => Laws.EncodesItsRow.seImm _ _ rfl)

theorem row_sneImm : Row 0xF000#16 0x4000#16 (fun op => .sneImm (fieldX op) (fieldNN op)) :=
  row_of_decode_of_encode (fun _ h => decodeWord_of_top_4 (fieldTop_of_and_maskTop h))
    (fun _ => Laws.EncodesItsRow.sneImm _ _ rfl)

theorem row_seReg : Row 0xF00F#16 0x5000#16 (fun op => .seReg (fieldX op) (fieldY op)) :=
  row_of_decode_of_encode
    (fun _ h => decodeWord_of_top_5 (fieldTop_of_and_maskTopN h) (fieldN_of_and_maskTopN h))
    (fun _ => Laws.EncodesItsRow.seReg _ _ rfl)

theorem row_sneReg : Row 0xF00F#16 0x9000#16 (fun op => .sneReg (fieldX op) (fieldY op)) :=
  row_of_decode_of_encode
    (fun _ h => decodeWord_of_top_9 (fieldTop_of_and_maskTopN h) (fieldN_of_and_maskTopN h))
    (fun _ => Laws.EncodesItsRow.sneReg _ _ rfl)

end Sys2Proof.Claims
end

section
/-! THE STATEMENT OF 42_skips.md. -/

namespace Sys2Proof.Claims

open Sys2Proof.Machine

/-- Settles O34: each register skip is its row and one conditional skip, which moves only `pc` (R86 to R89). -/
theorem registerSkipsAddTwoToPc : Obligations.RegisterSkipsAddTwoToPc := by
  refine ⟨row_seImm, row_sneImm, row_seReg, row_sneReg, fun x y nn s => ⟨?se, ?sne, ?seReg, ?sneReg⟩⟩
  case se => exact ⟨_, exec_seImm x nn s, s.skipIf_decide_pc _, sameBut_skipIf s _⟩
  case sne => exact ⟨_, exec_sneImm x nn s, s.skipIf_decide_not_pc _, sameBut_skipIf s _⟩
  case seReg => exact ⟨_, exec_seReg x y s, s.skipIf_decide_pc _, sameBut_skipIf s _⟩
  case sneReg => exact ⟨_, exec_sneReg x y s, s.skipIf_decide_not_pc _, sameBut_skipIf s _⟩

end Sys2Proof.Claims
end

section
/-! SUPPORT. The words of families 6, 7 and 8, and the row of an instruction of family 8 (30_encoding.md R56 to R59). -/

namespace Sys2Proof

variable {op : Word}

theorem decodeWord_of_top_6 (h : fieldTop op = 0x6#4) : decodeWord op = some (.ldImm (fieldX op) (fieldNN op)) := by
  unfold decodeWord
  rw [h]
  rfl

theorem decodeWord_of_top_7 (h : fieldTop op = 0x7#4) : decodeWord op = some (.addImm (fieldX op) (fieldNN op)) := by
  unfold decodeWord
  rw [h]
  rfl

theorem decodeWord_of_top_8 (h : fieldTop op = 0x8#4) : decodeWord op = decodeFamily8 op := by
  unfold decodeWord
  rw [h]
  rfl

theorem decodeFamily8_ldReg (hn : fieldN op = 0x0#4) : decodeFamily8 op = some (.ldReg (fieldX op) (fieldY op)) := by
  unfold decodeFamily8
  rw [hn]
  rfl

theorem decodeFamily8_orReg (hn : fieldN op = 0x1#4) : decodeFamily8 op = some (.orReg (fieldX op) (fieldY op)) := by
  unfold decodeFamily8
  rw [hn]
  rfl

theorem decodeFamily8_andReg (hn : fieldN op = 0x2#4) : decodeFamily8 op = some (.andReg (fieldX op) (fieldY op)) := by
  unfold decodeFamily8
  rw [hn]
  rfl

theorem decodeFamily8_xorReg (hn : fieldN op = 0x3#4) : decodeFamily8 op = some (.xorReg (fieldX op) (fieldY op)) := by
  unfold decodeFamily8
  rw [hn]
  rfl

end Sys2Proof

namespace Sys2Proof.Claims

open Sys2Proof.Machine

/-- An instruction of family 8 has its row when the family's decoder gives it for the pattern's `N` and its word has
the row's fixed bits. -/
theorem row_of_decodeFamily8 {pattern : Word} {f : Word → Instr} (htop : fieldTop pattern = 0x8#4)
    (hdec : ∀ op, fieldN op = fieldN pattern → decodeFamily8 op = some (f op))
    (henc : ∀ op, encode (f op) &&& 0xF00F#16 = pattern) : Row 0xF00F#16 pattern f :=
  row_of_decode_of_encode
    (fun op h => (decodeWord_of_top_8 ((fieldTop_of_and_maskTopN h).trans htop)).trans
      (hdec op (fieldN_of_and_maskTopN h)))
    henc

/-! ## The rows -/

theorem row_ldImm : Row 0xF000#16 0x6000#16 (fun op => .ldImm (fieldX op) (fieldNN op)) :=
  row_of_decode_of_encode (fun _ h => decodeWord_of_top_6 (fieldTop_of_and_maskTop h))
    (fun _ => Laws.EncodesItsRow.ldImm _ _ rfl)

theorem row_addImm : Row 0xF000#16 0x7000#16 (fun op => .addImm (fieldX op) (fieldNN op)) :=
  row_of_decode_of_encode (fun _ h => decodeWord_of_top_7 (fieldTop_of_and_maskTop h))
    (fun _ => Laws.EncodesItsRow.addImm _ _ rfl)

theorem row_ldReg : Row 0xF00F#16 0x8000#16 (fun op => .ldReg (fieldX op) (fieldY op)) :=
  row_of_decodeFamily8 rfl (fun _ => decodeFamily8_ldReg) (fun _ => Laws.EncodesItsRow.ldReg _ _ rfl)

theorem row_orReg : Row 0xF00F#16 0x8001#16 (fun op => .orReg (fieldX op) (fieldY op)) :=
  row_of_decodeFamily8 rfl (fun _ => decodeFamily8_orReg) (fun _ => Laws.EncodesItsRow.orReg _ _ rfl)

theorem row_andReg : Row 0xF00F#16 0x8002#16 (fun op => .andReg (fieldX op) (fieldY op)) :=
  row_of_decodeFamily8 rfl (fun _ => decodeFamily8_andReg) (fun _ => Laws.EncodesItsRow.andReg _ _ rfl)

theorem row_xorReg : Row 0xF00F#16 0x8003#16 (fun op => .xorReg (fieldX op) (fieldY op)) :=
  row_of_decodeFamily8 rfl (fun _ => decodeFamily8_xorReg) (fun _ => Laws.EncodesItsRow.xorReg _ _ rfl)

end Sys2Proof.Claims
end

section
/-! SUPPORT. The meanings of 6XNN, 7XNN and 8XY0 to 8XY3 as one register write each (43_alu.md R91 to R96), and what a
register write does in the terms of the statements. -/

namespace Sys2Proof.Machine

variable (x y : Reg) (nn : Byte) (s : State)

theorem exec_ldImm : exec (.ldImm x nn) s = .next (s.setV x nn) := by rfl

theorem exec_addImm : exec (.addImm x nn) s = .next (s.setV x (sum8 (s.getV x) nn)) := by rfl

theorem exec_ldReg : exec (.ldReg x y) s = .next (s.setV x (s.getV y)) := by rfl

theorem exec_orReg : exec (.orReg x y) s = .next (s.setV x (s.getV x ||| s.getV y)) := by rfl

theorem exec_andReg : exec (.andReg x y) s = .next (s.setV x (s.getV x &&& s.getV y)) := by rfl

theorem exec_xorReg : exec (.xorReg x y) s = .next (s.setV x (s.getV x ^^^ s.getV y)) := by rfl

/-- The sum of two bytes is the sum of their values modulo 256 (R8). -/
@[simp] theorem sum8_toNat (a b : Byte) : (sum8 a b).toNat = (a.toNat + b.toNat) % 256 :=
  (BitVec.toNat_ofNat _ _).trans (Nat.mod_mod _ _)

end Sys2Proof.Machine

namespace Sys2Proof.Claims

open Sys2Proof.Machine

theorem sameBut_setV (s : State) (x : Reg) (v : Byte) : SameBut [.regs] s (s.setV x v) := by
  intro p hp
  cases p
  case regs => exact absurd List.mem_cons_self hp
  all_goals simp [Part.same]

theorem onlyRegs_setV (s : State) (x : Reg) (v : Byte) : OnlyRegs [x] s (s.setV x v) :=
  ⟨sameBut_setV s x v, fun _ hr => State.setV_getV_other (List.ne_of_not_mem_cons hr) v⟩

end Sys2Proof.Claims
end

section
/-! THE STATEMENTS OF 43_alu.md: loads, the immediate sum and the logic instructions. -/

namespace Sys2Proof.Claims

open Sys2Proof.Machine

/-- Settles O35: 6XNN is its row and one write of the immediate to `V[x]` (R91). -/
theorem loadImmediateSetsRegister : Obligations.LoadImmediateSetsRegister :=
  ⟨row_ldImm, fun x nn s => ⟨_, exec_ldImm x nn s, s.setV_getV_same x nn, onlyRegs_setV s x nn⟩⟩

/-- Settles O36: 7XNN is its row and one write of the sum to `V[x]`; no flag is written beside it (R92). -/
theorem addImmediateWrapsWithoutFlag : Obligations.AddImmediateWrapsWithoutFlag := by
  refine ⟨row_addImm, fun x nn s => ⟨_, exec_addImm x nn s, ?_, onlyRegs_setV s x _⟩⟩
  rw [State.setV_getV_same, sum8_toNat]

/-- Settles O37: 8XY0 is its row and one write of the old `V[y]` to `V[x]` (R93). -/
theorem copyRegisterSetsRegister : Obligations.CopyRegisterSetsRegister :=
  ⟨row_ldReg, fun x y s => ⟨_, exec_ldReg x y s, s.setV_getV_same x _, onlyRegs_setV s x _⟩⟩

/-- Settles O38: each logic instruction is its row and one write to `V[x]` of the byte whose bits combine the old bits
of `V[x]` and `V[y]`; no flag is written beside it (R94 to R96). -/
theorem logicIsBitwiseWithoutFlag : Obligations.LogicIsBitwiseWithoutFlag := by
  refine ⟨row_orReg, row_andReg, row_xorReg, fun x y s => ⟨?or, ?and, ?xor⟩⟩
  case or =>
    refine ⟨_, exec_orReg x y s, fun b => ?_, onlyRegs_setV s x _⟩
    rw [State.setV_getV_same, BitVec.getLsbD_or]
  case and =>
    refine ⟨_, exec_andReg x y s, fun b => ?_, onlyRegs_setV s x _⟩
    rw [State.setV_getV_same, BitVec.getLsbD_and]
  case xor =>
    refine ⟨_, exec_xorReg x y s, fun b => ?_, onlyRegs_setV s x _⟩
    rw [State.setV_getV_same, BitVec.getLsbD_xor]

end Sys2Proof.Claims
end

section
/-! SUPPORT. The words of families A and B, and the meanings of ANNN and BNNN as one write of `I` and one of `pc`
(44_index_jump_random.md R102, R103). -/

namespace Sys2Proof

variable {op : Word}

theorem decodeWord_of_top_A (h : fieldTop op = 0xA#4) : decodeWord op = some (.ldI (fieldNNN op)) := by
  unfold decodeWord
  rw [h]
  rfl

theorem decodeWord_of_top_B (h : fieldTop op = 0xB#4) : decodeWord op = some (.jpV0 (fieldNNN op)) := by
  unfold decodeWord
  rw [h]
  rfl

end Sys2Proof

namespace Sys2Proof.Machine

theorem exec_ldI (nnn : Imm12) (s : State) : exec (.ldI nnn) s = .next (s.setI (immWord nnn)) := by rfl

theorem exec_jpV0 (nnn : Imm12) (s : State) :
    exec (.jpV0 nnn) s = .next (s.setPc (immWord nnn + byteWord (s.getV 0))) := by rfl

/-- A byte is zero-extended to a word: it keeps its value. -/
@[simp] theorem byteWord_toNat (v : Byte) : (byteWord v).toNat = v.toNat :=
  BitVec.toNat_setWidth_of_le (by decide)

/-- An address immediate and a byte add without wrapping: the sum is at most 0x10FE, above 12 bits but inside 16
(R103). -/
theorem immWord_add_byteWord_toNat (nnn : Imm12) (v : Byte) :
    (immWord nnn + byteWord v).toNat = nnn.toNat + v.toNat := by
  have hnnn : nnn.toNat < 4096 := nnn.isLt
  have hv : v.toNat < 256 := v.isLt
  have hfits : (immWord nnn).toNat + (byteWord v).toNat < 2 ^ 16 := by
    rw [immWord_toNat, byteWord_toNat]
    omega
  rw [BitVec.toNat_add_of_lt hfits, immWord_toNat, byteWord_toNat]

end Sys2Proof.Machine

namespace Sys2Proof.Claims

open Sys2Proof.Machine

theorem sameBut_setI (s : State) (v : Word) : SameBut [.index] s (s.setI v) := by
  intro p hp
  cases p
  case index => exact absurd List.mem_cons_self hp
  all_goals simp [Part.same]

/-! ## The rows -/

theorem row_ldI : Row 0xF000#16 0xA000#16 (fun op => .ldI (fieldNNN op)) :=
  row_of_decode_of_encode (fun _ h => decodeWord_of_top_A (fieldTop_of_and_maskTop h))
    (fun _ => Laws.EncodesItsRow.ldI _ rfl)

theorem row_jpV0 : Row 0xF000#16 0xB000#16 (fun op => .jpV0 (fieldNNN op)) :=
  row_of_decode_of_encode (fun _ h => decodeWord_of_top_B (fieldTop_of_and_maskTop h))
    (fun _ => Laws.EncodesItsRow.jpV0 _ rfl)

end Sys2Proof.Claims
end

section
/-! THE STATEMENTS OF 44_index_jump_random.md: the index load and the indexed jump. -/

namespace Sys2Proof.Claims

open Sys2Proof.Machine

/-- Settles O43: ANNN is its row and one write of the zero-extended address to `I` (R102). -/
theorem loadIndexSetsI : Obligations.LoadIndexSetsI :=
  ⟨row_ldI, fun nnn s => ⟨_, exec_ldI nnn s, immWord_toNat nnn, sameBut_setI s _⟩⟩

/-- Settles O44: BNNN is its row and one write of `pc`, by a 16-bit sum that cannot wrap (R103). -/
theorem indexedJumpAddsV0 : Obligations.IndexedJumpAddsV0 :=
  ⟨row_jpV0, fun nnn s => ⟨_, exec_jpV0 nnn s, immWord_add_byteWord_toNat nnn (s.getV 0), sameBut_setPc s _⟩⟩

end Sys2Proof.Claims
end

section
/-! SUPPORT. The mask of the family nibble and `NN`, read back; and the row of an instruction of family F
(30_encoding.md R57, R59). -/

namespace Sys2Proof

variable {op : Word}

theorem fieldNN_and (a b : Word) : fieldNN (a &&& b) = fieldNN a &&& fieldNN b := BitVec.extractLsb'_and

/-- The mask of the family nibble and `NN` keeps the family. -/
theorem fieldTop_of_and_maskTopNN {p : Word} (h : op &&& 0xF0FF#16 = p) : fieldTop op = fieldTop p := by
  rw [← h, fieldTop_and]
  exact BitVec.and_allOnes.symm

/-- The mask of the family nibble and `NN` keeps `NN`. -/
theorem fieldNN_of_and_maskTopNN {p : Word} (h : op &&& 0xF0FF#16 = p) : fieldNN op = fieldNN p := by
  rw [← h, fieldNN_and]
  exact BitVec.and_allOnes.symm

theorem decodeWord_of_top_F (h : fieldTop op = 0xF#4) : decodeWord op = decodeFamilyF op := by
  unfold decodeWord
  rw [h]
  rfl

theorem decodeFamilyF_ldF (hnn : fieldNN op = 0x29#8) : decodeFamilyF op = some (.ldF (fieldX op)) := by
  unfold decodeFamilyF
  rw [hnn]
  rfl

end Sys2Proof

namespace Sys2Proof.Claims

open Sys2Proof.Machine

/-- An instruction of family F has its row when the family's decoder gives it for the pattern's `NN` and its word has
the row's fixed bits. -/
theorem row_of_decodeFamilyF {pattern : Word} {f : Word → Instr} (htop : fieldTop pattern = 0xF#4)
    (hdec : ∀ op, fieldNN op = fieldNN pattern → decodeFamilyF op = some (f op))
    (henc : ∀ op, encode (f op) &&& 0xF0FF#16 = pattern) : Row 0xF0FF#16 pattern f :=
  row_of_decode_of_encode
    (fun op h => (decodeWord_of_top_F ((fieldTop_of_and_maskTopNN h).trans htop)).trans
      (hdec op (fieldNN_of_and_maskTopNN h)))
    henc

theorem row_ldF : Row 0xF0FF#16 0xF029#16 (fun op => .ldF (fieldX op)) :=
  row_of_decodeFamilyF rfl (fun _ => decodeFamilyF_ldF) (fun _ => Laws.EncodesItsRow.ldF _ rfl)

end Sys2Proof.Claims
end

section
/-! SUPPORT. The meaning of FX29 as one write of `I`, and the value of a glyph's address (47_timers_index.md R118). -/

namespace Sys2Proof.Machine

theorem exec_ldF (x : Reg) (s : State) : exec (.ldF x) s = .next (s.setI (glyphAddress (s.getV x))) := by rfl

/-- Five times a byte is at most 1275, so the product does not wrap at 16 bits (R118). -/
@[simp] theorem glyphAddress_toNat (v : Byte) : (glyphAddress v).toNat = v.toNat * 5 := by
  have hv : v.toNat < 256 := v.isLt
  have hfits : (byteWord v).toNat * (5#16).toNat < 2 ^ 16 := by
    rw [byteWord_toNat, BitVec.toNat_ofNat]
    omega
  calc (glyphAddress v).toNat
      = (byteWord v).toNat * (5#16).toNat := BitVec.toNat_mul_of_lt hfits
    _ = v.toNat * 5 := by rw [byteWord_toNat, BitVec.toNat_ofNat]

end Sys2Proof.Machine
end

section
/-! THE STATEMENT OF 47_timers_index.md: the glyph's address. -/

namespace Sys2Proof.Claims

open Sys2Proof.Machine

/-- Settles O53: FX29 is its row and one write of the glyph's address to `I`, by a product that cannot wrap (R118). -/
theorem glyphAddressIsFiveTimesRegister : Obligations.GlyphAddressIsFiveTimesRegister :=
  ⟨row_ldF, fun x s => ⟨_, exec_ldF x s, glyphAddress_toNat (s.getV x), sameBut_setI s _⟩⟩

end Sys2Proof.Claims
end

section
/-! SUPPORT. The words of the families and selectors that have no lemma above (30_encoding.md R56 to R58). -/

namespace Sys2Proof

variable {op : Word}

theorem decodeWord_of_top_0 (h : fieldTop op = 0x0#4) : decodeWord op = some (decodeFamily0 op) := by
  unfold decodeWord
  rw [h]
  rfl

theorem decodeWord_of_top_2 (h : fieldTop op = 0x2#4) : decodeWord op = some (.call (fieldNNN op)) := by
  unfold decodeWord
  rw [h]
  rfl

theorem decodeWord_of_top_C (h : fieldTop op = 0xC#4) : decodeWord op = some (.rnd (fieldX op) (fieldNN op)) := by
  unfold decodeWord
  rw [h]
  rfl

theorem decodeWord_of_top_D (h : fieldTop op = 0xD#4) :
    decodeWord op = some (.drw (fieldX op) (fieldY op) (fieldN op)) := by
  unfold decodeWord
  rw [h]
  rfl

theorem decodeWord_of_top_E (h : fieldTop op = 0xE#4) : decodeWord op = decodeFamilyE op := by
  unfold decodeWord
  rw [h]
  rfl

/-- A word of family 0 other than the two exact ones is SYS (R58). -/
theorem decodeFamily0_sys (hcls : op ≠ 0x00E0#16) (hret : op ≠ 0x00EE#16) :
    decodeFamily0 op = .sys (fieldNNN op) := by
  unfold decodeFamily0
  rw [if_neg hcls, if_neg hret]

theorem decodeFamily8_addReg (hn : fieldN op = 0x4#4) : decodeFamily8 op = some (.addReg (fieldX op) (fieldY op)) := by
  unfold decodeFamily8
  rw [hn]
  rfl

theorem decodeFamily8_subReg (hn : fieldN op = 0x5#4) : decodeFamily8 op = some (.subReg (fieldX op) (fieldY op)) := by
  unfold decodeFamily8
  rw [hn]
  rfl

theorem decodeFamily8_shr (hn : fieldN op = 0x6#4) : decodeFamily8 op = some (.shr (fieldX op) (fieldY op)) := by
  unfold decodeFamily8
  rw [hn]
  rfl

theorem decodeFamily8_subnReg (hn : fieldN op = 0x7#4) :
    decodeFamily8 op = some (.subnReg (fieldX op) (fieldY op)) := by
  unfold decodeFamily8
  rw [hn]
  rfl

theorem decodeFamily8_shl (hn : fieldN op = 0xE#4) : decodeFamily8 op = some (.shl (fieldX op) (fieldY op)) := by
  unfold decodeFamily8
  rw [hn]
  rfl

theorem decodeFamilyE_skp (hnn : fieldNN op = 0x9E#8) : decodeFamilyE op = some (.skp (fieldX op)) := by
  unfold decodeFamilyE
  rw [hnn]
  rfl

theorem decodeFamilyE_sknp (hnn : fieldNN op = 0xA1#8) : decodeFamilyE op = some (.sknp (fieldX op)) := by
  unfold decodeFamilyE
  rw [hnn]
  rfl

theorem decodeFamilyF_ldFromDT (hnn : fieldNN op = 0x07#8) : decodeFamilyF op = some (.ldFromDT (fieldX op)) := by
  unfold decodeFamilyF
  rw [hnn]
  rfl

theorem decodeFamilyF_ldKey (hnn : fieldNN op = 0x0A#8) : decodeFamilyF op = some (.ldKey (fieldX op)) := by
  unfold decodeFamilyF
  rw [hnn]
  rfl

theorem decodeFamilyF_ldDT (hnn : fieldNN op = 0x15#8) : decodeFamilyF op = some (.ldDT (fieldX op)) := by
  unfold decodeFamilyF
  rw [hnn]
  rfl

theorem decodeFamilyF_ldST (hnn : fieldNN op = 0x18#8) : decodeFamilyF op = some (.ldST (fieldX op)) := by
  unfold decodeFamilyF
  rw [hnn]
  rfl

theorem decodeFamilyF_addI (hnn : fieldNN op = 0x1E#8) : decodeFamilyF op = some (.addI (fieldX op)) := by
  unfold decodeFamilyF
  rw [hnn]
  rfl

theorem decodeFamilyF_ldB (hnn : fieldNN op = 0x33#8) : decodeFamilyF op = some (.ldB (fieldX op)) := by
  unfold decodeFamilyF
  rw [hnn]
  rfl

theorem decodeFamilyF_storeRegs (hnn : fieldNN op = 0x55#8) : decodeFamilyF op = some (.storeRegs (fieldX op)) := by
  unfold decodeFamilyF
  rw [hnn]
  rfl

theorem decodeFamilyF_loadRegs (hnn : fieldNN op = 0x65#8) : decodeFamilyF op = some (.loadRegs (fieldX op)) := by
  unfold decodeFamilyF
  rw [hnn]
  rfl

end Sys2Proof

namespace Sys2Proof.Claims

open Sys2Proof.Machine

/-! ## The rows that have no lemma above -/

/-- Row 1 of the opcode map excludes the words of rows 2 and 3, so it is no `Row` (R58). -/
theorem decodeWord_of_row_sys {op : Word} (h : op &&& 0xF000#16 = 0x0000#16) (hcls : op ≠ 0x00E0#16)
    (hret : op ≠ 0x00EE#16) : decodeWord op = some (.sys (fieldNNN op)) := by
  rw [decodeWord_of_top_0 (fieldTop_of_and_maskTop h), decodeFamily0_sys hcls hret]

/-- RET is the one word 0x00EE. -/
theorem row_ret : Row 0xFFFF#16 0x00EE#16 (fun _ => .ret) := by
  refine row_of_decode_of_encode (fun op h => ?_) (fun _ => Laws.EncodesItsRow.ret rfl)
  rw [show (0xFFFF#16 : Word) = BitVec.allOnes 16 from rfl, BitVec.and_allOnes] at h
  rw [h]
  decide

theorem row_call : Row 0xF000#16 0x2000#16 (fun op => .call (fieldNNN op)) :=
  row_of_decode_of_encode (fun _ h => decodeWord_of_top_2 (fieldTop_of_and_maskTop h))
    (fun _ => Laws.EncodesItsRow.call _ rfl)

theorem row_rnd : Row 0xF000#16 0xC000#16 (fun op => .rnd (fieldX op) (fieldNN op)) :=
  row_of_decode_of_encode (fun _ h => decodeWord_of_top_C (fieldTop_of_and_maskTop h))
    (fun _ => Laws.EncodesItsRow.rnd _ _ rfl)

theorem row_drw : Row 0xF000#16 0xD000#16 (fun op => .drw (fieldX op) (fieldY op) (fieldN op)) :=
  row_of_decode_of_encode (fun _ h => decodeWord_of_top_D (fieldTop_of_and_maskTop h))
    (fun _ => Laws.EncodesItsRow.drw _ _ _ rfl)

theorem row_addReg : Row 0xF00F#16 0x8004#16 (fun op => .addReg (fieldX op) (fieldY op)) :=
  row_of_decodeFamily8 rfl (fun _ => decodeFamily8_addReg) (fun _ => Laws.EncodesItsRow.addReg _ _ rfl)

theorem row_subReg : Row 0xF00F#16 0x8005#16 (fun op => .subReg (fieldX op) (fieldY op)) :=
  row_of_decodeFamily8 rfl (fun _ => decodeFamily8_subReg) (fun _ => Laws.EncodesItsRow.subReg _ _ rfl)

theorem row_shr : Row 0xF00F#16 0x8006#16 (fun op => .shr (fieldX op) (fieldY op)) :=
  row_of_decodeFamily8 rfl (fun _ => decodeFamily8_shr) (fun _ => Laws.EncodesItsRow.shr _ _ rfl)

theorem row_subnReg : Row 0xF00F#16 0x8007#16 (fun op => .subnReg (fieldX op) (fieldY op)) :=
  row_of_decodeFamily8 rfl (fun _ => decodeFamily8_subnReg) (fun _ => Laws.EncodesItsRow.subnReg _ _ rfl)

theorem row_shl : Row 0xF00F#16 0x800E#16 (fun op => .shl (fieldX op) (fieldY op)) :=
  row_of_decodeFamily8 rfl (fun _ => decodeFamily8_shl) (fun _ => Laws.EncodesItsRow.shl _ _ rfl)

/-- An instruction of family E has its row when the family's decoder gives it for the pattern's `NN` and its word has
the row's fixed bits. -/
theorem row_of_decodeFamilyE {pattern : Word} {f : Word → Instr} (htop : fieldTop pattern = 0xE#4)
    (hdec : ∀ op, fieldNN op = fieldNN pattern → decodeFamilyE op = some (f op))
    (henc : ∀ op, encode (f op) &&& 0xF0FF#16 = pattern) : Row 0xF0FF#16 pattern f :=
  row_of_decode_of_encode
    (fun op h => (decodeWord_of_top_E ((fieldTop_of_and_maskTopNN h).trans htop)).trans
      (hdec op (fieldNN_of_and_maskTopNN h)))
    henc

theorem row_skp : Row 0xF0FF#16 0xE09E#16 (fun op => .skp (fieldX op)) :=
  row_of_decodeFamilyE rfl (fun _ => decodeFamilyE_skp) (fun _ => Laws.EncodesItsRow.skp _ rfl)

theorem row_sknp : Row 0xF0FF#16 0xE0A1#16 (fun op => .sknp (fieldX op)) :=
  row_of_decodeFamilyE rfl (fun _ => decodeFamilyE_sknp) (fun _ => Laws.EncodesItsRow.sknp _ rfl)

theorem row_ldKey : Row 0xF0FF#16 0xF00A#16 (fun op => .ldKey (fieldX op)) :=
  row_of_decodeFamilyF rfl (fun _ => decodeFamilyF_ldKey) (fun _ => Laws.EncodesItsRow.ldKey _ rfl)

theorem row_ldFromDT : Row 0xF0FF#16 0xF007#16 (fun op => .ldFromDT (fieldX op)) :=
  row_of_decodeFamilyF rfl (fun _ => decodeFamilyF_ldFromDT) (fun _ => Laws.EncodesItsRow.ldFromDT _ rfl)

theorem row_ldDT : Row 0xF0FF#16 0xF015#16 (fun op => .ldDT (fieldX op)) :=
  row_of_decodeFamilyF rfl (fun _ => decodeFamilyF_ldDT) (fun _ => Laws.EncodesItsRow.ldDT _ rfl)

theorem row_ldST : Row 0xF0FF#16 0xF018#16 (fun op => .ldST (fieldX op)) :=
  row_of_decodeFamilyF rfl (fun _ => decodeFamilyF_ldST) (fun _ => Laws.EncodesItsRow.ldST _ rfl)

theorem row_addI : Row 0xF0FF#16 0xF01E#16 (fun op => .addI (fieldX op)) :=
  row_of_decodeFamilyF rfl (fun _ => decodeFamilyF_addI) (fun _ => Laws.EncodesItsRow.addI _ rfl)

theorem row_ldB : Row 0xF0FF#16 0xF033#16 (fun op => .ldB (fieldX op)) :=
  row_of_decodeFamilyF rfl (fun _ => decodeFamilyF_ldB) (fun _ => Laws.EncodesItsRow.ldB _ rfl)

theorem row_storeRegs : Row 0xF0FF#16 0xF055#16 (fun op => .storeRegs (fieldX op)) :=
  row_of_decodeFamilyF rfl (fun _ => decodeFamilyF_storeRegs) (fun _ => Laws.EncodesItsRow.storeRegs _ rfl)

theorem row_loadRegs : Row 0xF0FF#16 0xF065#16 (fun op => .loadRegs (fieldX op)) :=
  row_of_decodeFamilyF rfl (fun _ => decodeFamilyF_loadRegs) (fun _ => Laws.EncodesItsRow.loadRegs _ rfl)

end Sys2Proof.Claims
end

section
/-! SUPPORT. The opcode map as data (30_encoding.md R59): the row of an instruction is in the map, accepts the words
that decode to it, and no other row does. -/

namespace Sys2Proof.Claims

open Sys2Proof.Machine

variable {op : Word} {i : Instr} {r : OpcodeRow}

/-! ## Decode after encode -/

theorem decodeWord_encode_of_row {mask pattern : Word} {f : Word → Instr} (hrow : Row mask pattern f)
    (hbits : encode i &&& mask = pattern) (hf : f (encode i) = i) : decodeWord (encode i) = some i := by
  rw [(hrow (encode i)).mp hbits, hf]

/-- The word of a well-formed instruction decodes to it: it has its row's fixed bits, and the row's fields are the
operands. -/
theorem decodeWord_encode (h : i.WellFormed) : decodeWord (encode i) = some i := by
  cases i
  case sys nnn =>
    obtain ⟨hcls, hret⟩ : nnn ≠ clsImm ∧ nnn ≠ retImm := by
      simpa only [Instr.WellFormed, Instr.wellFormed, Bool.and_eq_true, decide_eq_true_eq] using h
    have hnnn : fieldNNN (encode (.sys nnn)) = nnn := fieldNNN_wordNNN _ _
    rw [decodeWord_of_row_sys (Laws.EncodesItsRow.sys nnn h)
      (fun e => hcls (hnnn.symm.trans (congrArg fieldNNN e)))
      (fun e => hret (hnnn.symm.trans (congrArg fieldNNN e))), hnnn]
  case cls => exact decodeWord_encode_of_row row_cls (Laws.EncodesItsRow.cls h) rfl
  case ret => exact decodeWord_encode_of_row row_ret (Laws.EncodesItsRow.ret h) rfl
  case jp => exact decodeWord_encode_of_row row_jp (Laws.EncodesItsRow.jp _ h) (by simp [encode])
  case call => exact decodeWord_encode_of_row row_call (Laws.EncodesItsRow.call _ h) (by simp [encode])
  case seImm => exact decodeWord_encode_of_row row_seImm (Laws.EncodesItsRow.seImm _ _ h) (by simp [encode])
  case sneImm => exact decodeWord_encode_of_row row_sneImm (Laws.EncodesItsRow.sneImm _ _ h) (by simp [encode])
  case seReg => exact decodeWord_encode_of_row row_seReg (Laws.EncodesItsRow.seReg _ _ h) (by simp [encode])
  case sneReg => exact decodeWord_encode_of_row row_sneReg (Laws.EncodesItsRow.sneReg _ _ h) (by simp [encode])
  case ldImm => exact decodeWord_encode_of_row row_ldImm (Laws.EncodesItsRow.ldImm _ _ h) (by simp [encode])
  case addImm => exact decodeWord_encode_of_row row_addImm (Laws.EncodesItsRow.addImm _ _ h) (by simp [encode])
  case ldReg => exact decodeWord_encode_of_row row_ldReg (Laws.EncodesItsRow.ldReg _ _ h) (by simp [encode])
  case orReg => exact decodeWord_encode_of_row row_orReg (Laws.EncodesItsRow.orReg _ _ h) (by simp [encode])
  case andReg => exact decodeWord_encode_of_row row_andReg (Laws.EncodesItsRow.andReg _ _ h) (by simp [encode])
  case xorReg => exact decodeWord_encode_of_row row_xorReg (Laws.EncodesItsRow.xorReg _ _ h) (by simp [encode])
  case addReg => exact decodeWord_encode_of_row row_addReg (Laws.EncodesItsRow.addReg _ _ h) (by simp [encode])
  case subReg => exact decodeWord_encode_of_row row_subReg (Laws.EncodesItsRow.subReg _ _ h) (by simp [encode])
  case shr => exact decodeWord_encode_of_row row_shr (Laws.EncodesItsRow.shr _ _ h) (by simp [encode])
  case subnReg => exact decodeWord_encode_of_row row_subnReg (Laws.EncodesItsRow.subnReg _ _ h) (by simp [encode])
  case shl => exact decodeWord_encode_of_row row_shl (Laws.EncodesItsRow.shl _ _ h) (by simp [encode])
  case ldI => exact decodeWord_encode_of_row row_ldI (Laws.EncodesItsRow.ldI _ h) (by simp [encode])
  case jpV0 => exact decodeWord_encode_of_row row_jpV0 (Laws.EncodesItsRow.jpV0 _ h) (by simp [encode])
  case rnd => exact decodeWord_encode_of_row row_rnd (Laws.EncodesItsRow.rnd _ _ h) (by simp [encode])
  case drw => exact decodeWord_encode_of_row row_drw (Laws.EncodesItsRow.drw _ _ _ h) (by simp [encode])
  case skp => exact decodeWord_encode_of_row row_skp (Laws.EncodesItsRow.skp _ h) (by simp [encode])
  case sknp => exact decodeWord_encode_of_row row_sknp (Laws.EncodesItsRow.sknp _ h) (by simp [encode])
  case ldKey => exact decodeWord_encode_of_row row_ldKey (Laws.EncodesItsRow.ldKey _ h) (by simp [encode])
  case ldFromDT => exact decodeWord_encode_of_row row_ldFromDT (Laws.EncodesItsRow.ldFromDT _ h) (by simp [encode])
  case ldDT => exact decodeWord_encode_of_row row_ldDT (Laws.EncodesItsRow.ldDT _ h) (by simp [encode])
  case ldST => exact decodeWord_encode_of_row row_ldST (Laws.EncodesItsRow.ldST _ h) (by simp [encode])
  case addI => exact decodeWord_encode_of_row row_addI (Laws.EncodesItsRow.addI _ h) (by simp [encode])
  case ldF => exact decodeWord_encode_of_row row_ldF (Laws.EncodesItsRow.ldF _ h) (by simp [encode])
  case ldB => exact decodeWord_encode_of_row row_ldB (Laws.EncodesItsRow.ldB _ h) (by simp [encode])
  case storeRegs => exact decodeWord_encode_of_row row_storeRegs (Laws.EncodesItsRow.storeRegs _ h) (by simp [encode])
  case loadRegs => exact decodeWord_encode_of_row row_loadRegs (Laws.EncodesItsRow.loadRegs _ h) (by simp [encode])

/-! ## What the decoder gives is well-formed -/

/-- A SYS that the decoder gives is not one of the two exact words (R58). -/
theorem wellFormed_of_decodeWord (h : decodeWord op = some i) : i.WellFormed := by
  cases i
  case sys nnn =>
    have hop : wordNNN 0x0#4 nnn = op := encode_of_decodeWord h
    have hcls : nnn ≠ clsImm := by
      rintro rfl
      rw [← hop] at h
      exact absurd h (by decide)
    have hret : nnn ≠ retImm := by
      rintro rfl
      rw [← hop] at h
      exact absurd h (by decide)
    simp only [Instr.WellFormed, Instr.wellFormed, Bool.and_eq_true, decide_eq_true_eq]
    exact ⟨hcls, hret⟩
  all_goals rfl

/-! ## The row of an instruction -/

/-- The words a row excludes: only row 1 excludes any. -/
def rowExclude : Instr → List Word
  | .sys _ => [0x00E0, 0x00EE]
  | _ => []

/-- The row of the opcode map an instruction belongs to. -/
def opcodeRow (i : Instr) : OpcodeRow :=
  ⟨i.rowNumber, (Laws.EncodesItsRow.rowBits i).2, (Laws.EncodesItsRow.rowBits i).1, rowExclude i⟩

theorem opcodeRow_mem (i : Instr) : opcodeRow i ∈ opcodeMap := by
  cases i <;> exact List.elem_iff.mp rfl

/-- The word of every well-formed instruction has its row's fixed bits. -/
theorem encodesItsRow : ∀ i, Laws.EncodesItsRow.Statement i
  | .sys _ => Laws.EncodesItsRow.sys _
  | .cls => Laws.EncodesItsRow.cls
  | .ret => Laws.EncodesItsRow.ret
  | .jp _ => Laws.EncodesItsRow.jp _
  | .call _ => Laws.EncodesItsRow.call _
  | .seImm _ _ => Laws.EncodesItsRow.seImm _ _
  | .sneImm _ _ => Laws.EncodesItsRow.sneImm _ _
  | .seReg _ _ => Laws.EncodesItsRow.seReg _ _
  | .sneReg _ _ => Laws.EncodesItsRow.sneReg _ _
  | .ldImm _ _ => Laws.EncodesItsRow.ldImm _ _
  | .addImm _ _ => Laws.EncodesItsRow.addImm _ _
  | .ldReg _ _ => Laws.EncodesItsRow.ldReg _ _
  | .orReg _ _ => Laws.EncodesItsRow.orReg _ _
  | .andReg _ _ => Laws.EncodesItsRow.andReg _ _
  | .xorReg _ _ => Laws.EncodesItsRow.xorReg _ _
  | .addReg _ _ => Laws.EncodesItsRow.addReg _ _
  | .subReg _ _ => Laws.EncodesItsRow.subReg _ _
  | .shr _ _ => Laws.EncodesItsRow.shr _ _
  | .subnReg _ _ => Laws.EncodesItsRow.subnReg _ _
  | .shl _ _ => Laws.EncodesItsRow.shl _ _
  | .ldI _ => Laws.EncodesItsRow.ldI _
  | .jpV0 _ => Laws.EncodesItsRow.jpV0 _
  | .rnd _ _ => Laws.EncodesItsRow.rnd _ _
  | .drw _ _ _ => Laws.EncodesItsRow.drw _ _ _
  | .skp _ => Laws.EncodesItsRow.skp _
  | .sknp _ => Laws.EncodesItsRow.sknp _
  | .ldKey _ => Laws.EncodesItsRow.ldKey _
  | .ldFromDT _ => Laws.EncodesItsRow.ldFromDT _
  | .ldDT _ => Laws.EncodesItsRow.ldDT _
  | .ldST _ => Laws.EncodesItsRow.ldST _
  | .addI _ => Laws.EncodesItsRow.addI _
  | .ldF _ => Laws.EncodesItsRow.ldF _
  | .ldB _ => Laws.EncodesItsRow.ldB _
  | .storeRegs _ => Laws.EncodesItsRow.storeRegs _
  | .loadRegs _ => Laws.EncodesItsRow.loadRegs _

theorem accepts_iff : r.accepts op = true ↔ op &&& r.mask = r.pat ∧ op ∉ r.exclude := by
  unfold OpcodeRow.accepts
  rw [Bool.and_eq_true, decide_eq_true_eq, Bool.not_eq_true', List.contains_eq_mem, decide_eq_false_iff_not]

/-- The two exact words of family 0 do not decode to the SYS row that excludes them. -/
theorem notMem_rowExclude (h : decodeWord op = some i) : op ∉ rowExclude i := by
  cases i
  case sys nnn =>
    intro hmem
    rcases List.mem_pair.mp hmem with rfl | rfl
    · cases ((row_cls _).mp rfl).symm.trans h
    · cases ((row_ret _).mp rfl).symm.trans h
  all_goals exact List.not_mem_nil

theorem opcodeRow_accepts (h : decodeWord op = some i) : (opcodeRow i).accepts op = true := by
  refine accepts_iff.mpr ⟨?_, notMem_rowExclude h⟩
  have hbits := encodesItsRow i (wellFormed_of_decodeWord h)
  rwa [encode_of_decodeWord h] at hbits

/-- A word that a row of the map accepts decodes to an instruction of that row. -/
theorem decodeWord_of_accepts (hr : r ∈ opcodeMap) (h : r.accepts op = true) :
    ∃ i, decodeWord op = some i ∧ opcodeRow i = r := by
  obtain ⟨hbits, hexcl⟩ := accepts_iff.mp h
  simp only [opcodeMap, opcodeRowsLow, opcodeRowsMid, opcodeRowsHigh, List.mem_append, List.mem_cons,
    List.not_mem_nil, or_false, or_assoc] at hr
  rcases hr with rfl | rfl | rfl | rfl | rfl | rfl | rfl | rfl | rfl | rfl | rfl | rfl | rfl | rfl | rfl | rfl | rfl |
    rfl | rfl | rfl | rfl | rfl | rfl | rfl | rfl | rfl | rfl | rfl | rfl | rfl | rfl | rfl | rfl | rfl | rfl
  · obtain ⟨hcls, hret⟩ : op ≠ 0x00E0#16 ∧ op ≠ 0x00EE#16 := by simpa using hexcl
    exact ⟨_, decodeWord_of_row_sys hbits hcls hret, rfl⟩
  · exact ⟨_, (row_cls op).mp hbits, rfl⟩
  · exact ⟨_, (row_ret op).mp hbits, rfl⟩
  · exact ⟨_, (row_jp op).mp hbits, rfl⟩
  · exact ⟨_, (row_call op).mp hbits, rfl⟩
  · exact ⟨_, (row_seImm op).mp hbits, rfl⟩
  · exact ⟨_, (row_sneImm op).mp hbits, rfl⟩
  · exact ⟨_, (row_seReg op).mp hbits, rfl⟩
  · exact ⟨_, (row_sneReg op).mp hbits, rfl⟩
  · exact ⟨_, (row_ldImm op).mp hbits, rfl⟩
  · exact ⟨_, (row_addImm op).mp hbits, rfl⟩
  · exact ⟨_, (row_ldReg op).mp hbits, rfl⟩
  · exact ⟨_, (row_orReg op).mp hbits, rfl⟩
  · exact ⟨_, (row_andReg op).mp hbits, rfl⟩
  · exact ⟨_, (row_xorReg op).mp hbits, rfl⟩
  · exact ⟨_, (row_addReg op).mp hbits, rfl⟩
  · exact ⟨_, (row_subReg op).mp hbits, rfl⟩
  · exact ⟨_, (row_shr op).mp hbits, rfl⟩
  · exact ⟨_, (row_subnReg op).mp hbits, rfl⟩
  · exact ⟨_, (row_shl op).mp hbits, rfl⟩
  · exact ⟨_, (row_ldI op).mp hbits, rfl⟩
  · exact ⟨_, (row_jpV0 op).mp hbits, rfl⟩
  · exact ⟨_, (row_rnd op).mp hbits, rfl⟩
  · exact ⟨_, (row_drw op).mp hbits, rfl⟩
  · exact ⟨_, (row_skp op).mp hbits, rfl⟩
  · exact ⟨_, (row_sknp op).mp hbits, rfl⟩
  · exact ⟨_, (row_ldKey op).mp hbits, rfl⟩
  · exact ⟨_, (row_ldFromDT op).mp hbits, rfl⟩
  · exact ⟨_, (row_ldDT op).mp hbits, rfl⟩
  · exact ⟨_, (row_ldST op).mp hbits, rfl⟩
  · exact ⟨_, (row_addI op).mp hbits, rfl⟩
  · exact ⟨_, (row_ldF op).mp hbits, rfl⟩
  · exact ⟨_, (row_ldB op).mp hbits, rfl⟩
  · exact ⟨_, (row_storeRegs op).mp hbits, rfl⟩
  · exact ⟨_, (row_loadRegs op).mp hbits, rfl⟩

end Sys2Proof.Claims
end

section
/-! SUPPORT. Which words of each family do not decode (30_encoding.md R60). -/

namespace Sys2Proof

variable {op : Word}

theorem decodeFamily8_eq_none_iff : decodeFamily8 op = none ↔
    fieldN op ∈ [0x8#4, 0x9#4, 0xA#4, 0xB#4, 0xC#4, 0xD#4, 0xF#4] := by
  unfold decodeFamily8
  generalize fieldN op = n
  obtain ⟨k, hk⟩ := n
  interval_cases k <;> simp

theorem decodeFamilyE_eq_none_iff : decodeFamilyE op = none ↔ fieldNN op ∉ [0x9E#8, 0xA1#8] := by
  unfold decodeFamilyE
  split_ifs <;> simp [*]

theorem decodeFamilyF_eq_none_iff : decodeFamilyF op = none ↔
    fieldNN op ∉ [0x07#8, 0x0A#8, 0x15#8, 0x18#8, 0x1E#8, 0x29#8, 0x33#8, 0x55#8, 0x65#8] := by
  unfold decodeFamilyF
  split_ifs <;> simp [*]

/-- The top nibble is one of 16, and only families 5, 8, 9, E and F have words that do not decode. -/
theorem decodeWord_eq_none_iff : decodeWord op = none ↔
    ((fieldTop op = 0x5#4 ∨ fieldTop op = 0x9#4) ∧ fieldN op ≠ 0x0#4) ∨
    (fieldTop op = 0x8#4 ∧ decodeFamily8 op = none) ∨
    (fieldTop op = 0xE#4 ∧ decodeFamilyE op = none) ∨
    (fieldTop op = 0xF#4 ∧ decodeFamilyF op = none) := by
  unfold decodeWord
  generalize fieldTop op = f
  obtain ⟨k, hk⟩ := f
  interval_cases k <;> simp

end Sys2Proof
end

section
/-! THE STATEMENTS OF 30_encoding.md. -/

namespace Sys2Proof.Claims

open Sys2Proof.Machine

/-- Settles O1, row by row of the opcode map (R59). -/
theorem decodeOfEncodeIsTheInstruction : Obligations.DecodeOfEncodeIsTheInstruction :=
  fun _ => decodeWord_encode

/-- Settles O2: the decoder drops no bit of a word, and gives no SYS for the words of CLS and RET. -/
theorem encodeOfDecodeIsTheWord : Obligations.EncodeOfDecodeIsTheWord :=
  fun _ _ h => ⟨encode_of_decodeWord h, wellFormed_of_decodeWord h⟩

/-- Settles O3: a row that accepts a word is the row of the instruction it decodes to, and a word that decodes is
accepted by that row. -/
theorem decoderFollowsOpcodeMap : Obligations.DecoderFollowsOpcodeMap := by
  intro op
  cases hfind : opcodeMap.find? (fun r => r.accepts op) with
  | some r =>
    have hr : r.accepts op = true := List.find?_some (p := fun r : OpcodeRow => r.accepts op) hfind
    obtain ⟨i, hi, rfl⟩ := decodeWord_of_accepts (List.mem_of_find?_eq_some hfind) hr
    rw [hi]
    rfl
  | none =>
    have hnone : decodeWord op = none := Option.eq_none_iff_forall_ne_some.mpr fun i hi =>
      List.find?_eq_none.mp hfind (opcodeRow i) (opcodeRow_mem i) (opcodeRow_accepts hi)
    rw [hnone]
    rfl

/-- Settles O4: every row that accepts a word is the row of the one instruction it decodes to. -/
theorem noWordMatchesTwoRows : Obligations.NoWordMatchesTwoRows := by
  intro op r r' hr hr' h h'
  obtain ⟨i, hi, hri⟩ := decodeWord_of_accepts hr h
  obtain ⟨i', hi', hri'⟩ := decodeWord_of_accepts hr' h'
  rw [← hri, ← hri', Option.some.inj (hi.symm.trans hi')]

/-- Settles O5, family by family (R60). -/
theorem unrecognizedWordsAreThese : Obligations.UnrecognizedWordsAreThese := by
  intro op
  rw [decodeWord_eq_none_iff, decodeFamily8_eq_none_iff, decodeFamilyE_eq_none_iff, decodeFamilyF_eq_none_iff]

/-- Settles O6: eleven fixed words, each decoded. -/
theorem sampleWordsDecode : Obligations.SampleWordsDecode := by
  unfold Obligations.SampleWordsDecode
  decide

end Sys2Proof.Claims
end

section
/-! SUPPORT. The frame of an update as equalities of whole fields: a piece that is `Fixed` is the same in the terms of
the statements, and the memory and the display are the same data, not only read the same. -/

namespace Sys2Proof.Machine

/-- The call stack's entries replaced whole. -/
def State.setStack (s : State) (c : Vector Word 12) : State := { s with stack := c }

/-- `sp <- n`. -/
def State.setSp (s : State) (n : Fin 13) : State := { s with sp := n }

end Sys2Proof.Machine

namespace Sys2Proof.Claims

open Sys2Proof.Machine

/-- The piece's fields are equal in both states. -/
def Part.Fixed : Part → State → State → Prop
  | .regs, s, t => t.V = s.V
  | .index, s, t => t.I = s.I
  | .pc, s, t => t.pc = s.pc
  | .stack, s, t => t.stack = s.stack
  | .sp, s, t => t.sp = s.sp
  | .disp, s, t => t.disp = s.disp
  | .keys, s, t => t.key = s.key
  | .delay, s, t => t.DT = s.DT
  | .sound, s, t => t.ST = s.ST
  | .mem, s, t => t.mem = s.mem
  | .run, s, t => t.runState = s.runState
  | .awaiting, s, t => t.awaitingKey = s.awaitingKey
  | .fault, s, t => t.halt = s.halt ∧ t.faultPc = s.faultPc ∧ t.faultOp = s.faultOp
  | .draws, s, t => t.draws = s.draws

/-- Every piece but the named ones is fixed. -/
def FixedBut (ps : List Part) (s t : State) : Prop := ∀ p, p ∉ ps → p.Fixed s t

variable {s t u : State} {ps qs : List Part}

theorem Part.Fixed.same {p : Part} (h : p.Fixed s t) : p.same s t := by
  cases p
  case regs => exact fun r => congrArg (Vector.get · r) h
  case stack => exact fun k hk => by rw [show t.stack = s.stack from h]
  case disp => exact fun col row _ _ => congrArg (BitVec.getLsbD · (cellIndex col row)) h
  case mem => exact fun a => congrArg (Memory.read · a) h
  all_goals exact h

theorem Part.Fixed.trans {p : Part} (h : p.Fixed s t) (h' : p.Fixed t u) : p.Fixed s u := by
  cases p
  case fault => exact ⟨h'.1.trans h.1, h'.2.1.trans h.2.1, h'.2.2.trans h.2.2⟩
  all_goals exact Eq.trans h' h

theorem FixedBut.sameBut (h : FixedBut ps s t) : SameBut ps s t := fun p hp => (h p hp).same

theorem FixedBut.mono (h : FixedBut ps s t) (hsub : ps ⊆ qs) : FixedBut qs s t :=
  fun p hp => h p (fun hq => hp (hsub hq))

theorem FixedBut.trans (h : FixedBut ps s t) (h' : FixedBut qs t u) : FixedBut (ps ++ qs) s u := fun p hp =>
  (h p (fun hq => hp (List.mem_append_left _ hq))).trans (h' p (fun hq => hp (List.mem_append_right _ hq)))

theorem fixedBut_refl (s : State) : FixedBut [] s s := fun p _ => by
  cases p
  case fault => exact ⟨rfl, rfl, rfl⟩
  all_goals exact Eq.refl _

/-! ## The single updates -/

theorem fixedBut_setV (s : State) (x : Reg) (v : Byte) : FixedBut [.regs] s (s.setV x v) := fun p hp => by
  cases p <;> simp_all [Part.Fixed]

theorem fixedBut_setRegs (s : State) (V : Vector Byte 16) : FixedBut [.regs] s (s.setRegs V) := fun p hp => by
  cases p <;> simp_all [Part.Fixed]

theorem fixedBut_writeFlagged (s : State) (o : FlagOrder) (x : Reg) (f : State → Bool) (g : State → Byte) :
    FixedBut [.regs] s (s.writeFlagged o x f g) := fun p hp => by
  cases p <;> simp_all [Part.Fixed]

theorem fixedBut_setI (s : State) (v : Word) : FixedBut [.index] s (s.setI v) := fun p hp => by
  cases p <;> simp_all [Part.Fixed]

theorem fixedBut_setPc (s : State) (v : Word) : FixedBut [.pc] s (s.setPc v) := fun p hp => by
  cases p <;> simp_all [Part.Fixed]

theorem fixedBut_skipIf (s : State) (c : Bool) : FixedBut [.pc] s (s.skipIf c) := fun p hp => by
  cases p <;> simp_all [Part.Fixed]

theorem fixedBut_setStack (s : State) (c : Vector Word 12) : FixedBut [.stack] s (s.setStack c) := fun p hp => by
  cases p <;> simp_all [Part.Fixed, State.setStack]

theorem fixedBut_setSp (s : State) (n : Fin 13) : FixedBut [.sp] s (s.setSp n) := fun p hp => by
  cases p <;> simp_all [Part.Fixed, State.setSp]

theorem fixedBut_setDisp (s : State) (d : BitVec 2048) : FixedBut [.disp] s (s.setDisp d) := fun p hp => by
  cases p <;> simp_all [Part.Fixed]

theorem fixedBut_setKey (s : State) (k : BitVec 16) : FixedBut [.keys] s (s.setKey k) := fun p hp => by
  cases p <;> simp_all [Part.Fixed]

theorem fixedBut_setDT (s : State) (v : Byte) : FixedBut [.delay] s (s.setDT v) := fun p hp => by
  cases p <;> simp_all [Part.Fixed]

theorem fixedBut_setST (s : State) (v : Byte) : FixedBut [.sound] s (s.setST v) := fun p hp => by
  cases p <;> simp_all [Part.Fixed]

theorem fixedBut_setMem (s : State) (m : Memory) : FixedBut [.mem] s (s.setMem m) := fun p hp => by
  cases p <;> simp_all [Part.Fixed]

theorem fixedBut_setAwaiting (s : State) (b : Bool) : FixedBut [.awaiting] s (s.setAwaiting b) := fun p hp => by
  cases p <;> simp_all [Part.Fixed]

theorem fixedBut_setRunState (s : State) (q : RunState) : FixedBut [.run] s (s.setRunState q) := fun p hp => by
  cases p <;> simp_all [Part.Fixed]

theorem fixedBut_countDraw (s : State) : FixedBut [.draws] s s.countDraw := fun p hp => by
  cases p <;> simp_all [Part.Fixed]

/-- A fault whose recorded address is `pc` leaves `pc` too (R74). -/
theorem fixedBut_takeFault (s : State) (k : HaltCode) (op : Word) : FixedBut [.fault] s (s.takeFault k s.pc op) :=
  fun p hp => by
  cases p <;> simp_all [Part.Fixed]

theorem fixedBut_raiseFault (s : State) (k : HaltCode) (i : Instr) : FixedBut [.pc, .fault] s (s.raiseFault k i) :=
  fun p hp => by
  cases p <;> simp_all [Part.Fixed]

/-- `raise Fault(kind)` in a meaning is the fault of the statements. -/
theorem faultTaken_raiseFault (s : State) (k : HaltCode) (i : Instr) :
    FaultTaken k (encode i) s (s.raiseFault k i) :=
  ⟨rfl, rfl, rfl, rfl, (fixedBut_raiseFault s k i).sameBut⟩

end Sys2Proof.Claims
end

section
/-! SUPPORT. A step case by case (40_execution_cycle.md R77), and the diagnostic event of a step (R73). -/

namespace Sys2Proof.Machine

variable {s t : State} {i : Instr}

/-- Either reason closes the gate of a step and of a tick (R67, R133). -/
theorem not_enabled_of (h : s.runState = .paused ∨ s.halt ≠ .none) :
    ¬ (s.runState = .running ∧ s.halt = .none) := by
  rintro ⟨hrun, hhalt⟩
  rcases h with hpaused | hne
  · cases hpaused.symm.trans hrun
  · exact hne hhalt

theorem step_disabled (h : ¬ (s.runState = .running ∧ s.halt = .none)) : step s = .next s := by
  rw [step_eq, if_neg h]

theorem State.fetch_inside (hf : s.Fetchable) :
    fetchWord hw.addrOob hw.oddPc s.mem s.pc.toNat = some s.nextWord :=
  s.fetch_eq.trans (if_pos hf)

theorem State.fetch_outside (hf : ¬ s.Fetchable) : fetchWord hw.addrOob hw.oddPc s.mem s.pc.toNat = none :=
  s.fetch_eq.trans (if_neg hf)

theorem step_fetch_outside (hrun : s.runState = .running) (hhalt : s.halt = .none) (hf : ¬ s.Fetchable) :
    step s = .next (s.takeFault .memoryBounds s.pc 0#16) := by
  unfold step
  rw [if_pos (State.enabled_iff.mpr ⟨hrun, hhalt⟩), State.fetch_outside hf]

theorem step_unrecognized (hrun : s.runState = .running) (hhalt : s.halt = .none) (hf : s.Fetchable)
    (hd : decodeWord s.nextWord = none) : step s = .next s.advance := by
  unfold step
  rw [if_pos (State.enabled_iff.mpr ⟨hrun, hhalt⟩), State.fetch_inside hf]
  simp only [hd]

theorem step_decoded (hrun : s.runState = .running) (hhalt : s.halt = .none) (hf : s.Fetchable)
    (hd : decodeWord s.nextWord = some i) : step s = exec i s.advance := by
  unfold step
  rw [if_pos (State.enabled_iff.mpr ⟨hrun, hhalt⟩), State.fetch_inside hf]
  simp only [hd]

/-- The four ways a step goes from `s` to `t`. -/
inductive StepCase (s t : State) : Prop where
  /-- Paused or halted (R67). -/
  | ignored (hoff : ¬ (s.runState = .running ∧ s.halt = .none)) (ht : t = s)
  /-- The fetch faults (R68). -/
  | outside (hrun : s.runState = .running) (hhalt : s.halt = .none) (hf : ¬ s.Fetchable)
      (ht : t = s.takeFault .memoryBounds s.pc 0#16)
  /-- No row of the opcode map matches (R73). -/
  | unrecognized (hrun : s.runState = .running) (hhalt : s.halt = .none) (hf : s.Fetchable)
      (hd : decodeWord s.nextWord = none) (ht : t = s.advance)
  /-- An instruction runs (R70). -/
  | decoded (i : Instr) (hrun : s.runState = .running) (hhalt : s.halt = .none) (hf : s.Fetchable)
      (hd : decodeWord s.nextWord = some i) (ht : exec i s.advance = .next t)

theorem step_cases (h : step s = .next t) : StepCase s t := by
  by_cases hon : s.runState = .running ∧ s.halt = .none
  · obtain ⟨hrun, hhalt⟩ := hon
    by_cases hf : s.Fetchable
    · cases hd : decodeWord s.nextWord with
      | none =>
        rw [step_unrecognized hrun hhalt hf hd] at h
        cases h
        exact .unrecognized hrun hhalt hf hd rfl
      | some i =>
        rw [step_decoded hrun hhalt hf hd] at h
        exact .decoded i hrun hhalt hf hd h
    · rw [step_fetch_outside hrun hhalt hf] at h
      cases h
      exact .outside hrun hhalt hf rfl
  · rw [step_disabled hon] at h
    cases h
    exact .ignored hon rfl

/-! ## The diagnostic event -/

/-- On this hardware the reported words are those outside the opcode map and the SYS space (R73, R81). -/
theorem reportsUnrecognized_iff {op : Word} :
    reportsUnrecognized op = true ↔ decodeWord op = none ∨ ∃ nnn, decodeWord op = some (.sys nnn) := by
  unfold reportsUnrecognized
  cases decodeWord op with
  | none => simp
  | some i => cases i <;> simp

theorem diagnostic_eq_some_iff {a op : Word} : s.diagnostic = some (a, op) ↔
    (s.runState = .running ∧ s.halt = .none) ∧ s.Fetchable ∧ reportsUnrecognized s.nextWord = true ∧
      s.pc = a ∧ s.nextWord = op := by
  unfold State.diagnostic
  rw [← State.enabled_iff]
  by_cases hf : s.Fetchable
  · rw [State.fetch_inside hf]
    simp [hf]
  · rw [State.fetch_outside hf]
    simp [hf]

end Sys2Proof.Machine
end

section
/-! THE STATEMENTS OF 40_execution_cycle.md about one step. -/

namespace Sys2Proof.Claims

open Sys2Proof.Machine

/-- Settles O7: the gate is open and the fetch succeeds, so the step is the decoded instruction's meaning (R70). -/
theorem stepRunsDecodedInstruction : Obligations.StepRunsDecodedInstruction :=
  fun _ _ hrun hhalt hf hd => step_decoded hrun hhalt hf hd

/-- Settles O8: the step is the advance alone (R73). -/
theorem unrecognizedWordOnlyAdvances : Obligations.UnrecognizedWordOnlyAdvances :=
  fun s hrun hhalt hf hd =>
    ⟨s.advance, step_unrecognized hrun hhalt hf hd, rfl, (fixedBut_setPc s _).sameBut⟩

/-- Settles O9: from 0x0FFF on the word does not fit, and the fault is taken at `pc` itself (R68, R74). -/
theorem fetchOutsideMemoryFaults : Obligations.FetchOutsideMemoryFaults := by
  intro s hrun hhalt hpc
  have hf : ¬ s.Fetchable := by
    unfold State.Fetchable memSize
    omega
  exact ⟨_, step_fetch_outside hrun hhalt hf, rfl, rfl, rfl, (fixedBut_takeFault s _ _).sameBut⟩

/-- Settles O10: either reason closes the gate (R67). -/
theorem stepIgnoredWhilePausedOrHalted : Obligations.StepIgnoredWhilePausedOrHalted := by
  intro s hoff
  exact step_disabled (not_enabled_of hoff)

/-- Settles O11: a step is the step of the core's record, which always has a next one. -/
theorem everyStepAnswersNext : Obligations.EveryStepAnswersNext := by
  intro s
  obtain ⟨t, ht, -⟩ := step_record s
  exact ⟨t, ht⟩

/-- Settles O14: the step advances `pc` and the jump sets it back. -/
theorem parkedStepChangesNothing : Obligations.ParkedStepChangesNothing := by
  rintro s ⟨hf, nnn, hd, hpc⟩
  by_cases hon : s.runState = .running ∧ s.halt = .none
  · rw [step_decoded hon.1 hon.2 hf hd, exec_jp, hpc]
    rfl
  · exact step_disabled hon

/-- Settles O60: the output is there when the gate is open, the fetch succeeds and the word is a reported one (R73). -/
theorem diagnosticNamesTheUnrecognizedWord : Obligations.DiagnosticNamesTheUnrecognizedWord := by
  intro s a op
  rw [diagnostic_eq_some_iff, reportsUnrecognized_iff]
  constructor
  · rintro ⟨⟨hrun, hhalt⟩, hf, hrep, rfl, rfl⟩
    exact ⟨hrun, hhalt, hf, rfl, rfl, hrep⟩
  · rintro ⟨hrun, hhalt, hf, rfl, rfl, hrep⟩
    exact ⟨⟨hrun, hhalt⟩, hf, hrep, rfl, rfl⟩

end Sys2Proof.Claims
end

section
/-! SUPPORT. Call and return as updates of the state (41_flow.md R83, R85). -/

namespace Sys2Proof.Machine

variable {s : State} {nnn : Imm12}

theorem exec_sys (nnn : Imm12) (s : State) : exec (.sys nnn) s = .next s := by rfl

/-- RET with `k + 1` open calls: `sp` goes down to `k`, and `pc` is the entry there. -/
theorem exec_ret_succ {k : Nat} (hk : k < 12) (h : s.sp.val = k + 1) :
    exec .ret s = .next ((s.setSp ⟨k, by omega⟩).setPc (s.stack[k]'hk)) := by
  rw [exec_ret_open (by omega)]
  simp only [h, Nat.add_sub_cancel]
  rfl

/-- CALL with room: the entry at `sp` is the advanced `pc`, and `sp` goes up by one. -/
theorem exec_call_push (h : s.sp.val < 12) : exec (.call nnn) s =
    .next (((s.setStack (s.stack.set s.sp.val s.pc h)).setSp ⟨s.sp.val + 1, by omega⟩).setPc (immWord nnn)) :=
  exec_call_room h

theorem encode_call (nnn : Imm12) : encode (.call nnn) = 0x2000#16 ||| nnn.setWidth 16 := by
  show (0x2#4 ++ nnn : Word) = _
  rw [BitVec.append_def]
  rfl

end Sys2Proof.Machine

namespace Sys2Proof.Claims

open Sys2Proof.Machine

theorem fixedBut_ret (s : State) (n : Fin 13) (v : Word) : FixedBut [.sp, .pc] s ((s.setSp n).setPc v) :=
  (fixedBut_setSp s n).trans (fixedBut_setPc _ v)

theorem fixedBut_call (s : State) (c : Vector Word 12) (n : Fin 13) (v : Word) :
    FixedBut [.stack, .sp, .pc] s (((s.setStack c).setSp n).setPc v) :=
  (fixedBut_setStack s c).trans (fixedBut_ret _ n v)

end Sys2Proof.Claims
end

section
/-! THE STATEMENTS OF 41_flow.md: SYS, return and call. -/

namespace Sys2Proof.Claims

open Sys2Proof.Machine

/-- Settles O28: SYS answers the state itself (R81). -/
theorem sysHasNoEffect : Obligations.SysHasNoEffect :=
  fun nnn s => ⟨s, exec_sys nnn s, (fixedBut_refl s).sameBut⟩

/-- Settles O30: with an open call RET moves `sp` and `pc` only, and with none it takes the fault (R83). -/
theorem returnPopsTheLastAddress : Obligations.ReturnPopsTheLastAddress := by
  intro s
  constructor
  · intro k hk hsp
    exact ⟨_, exec_ret_succ hk hsp, rfl, rfl, ((fixedBut_ret s _ _).mono (by simp)).sameBut⟩
  · intro hsp
    exact ⟨_, exec_ret_empty (by simp [hsp]), faultTaken_raiseFault s .stackUnderflow .ret⟩

/-- Settles O32: CALL is its row; with room it writes the entry at `sp`, `sp` and `pc`, and on a full stack it takes the
fault (R85). -/
theorem callPushesReturnAddressAndJumps : Obligations.CallPushesReturnAddressAndJumps := by
  refine ⟨row_call, fun nnn s => ⟨fun hroom => ?room, fun hfull => ?full⟩⟩
  case room =>
    refine ⟨_, exec_call_push hroom, Vector.getElem_set_self _, fun k hk hne => ?_, rfl, immWord_toNat nnn,
      ((fixedBut_call s _ _ _).mono (by simp)).sameBut⟩
    exact Vector.getElem_set_ne hroom hk hne.symm
  case full =>
    rw [← encode_call]
    exact ⟨_, exec_call_full (by simp [hfull]), faultTaken_raiseFault s .stackOverflow (.call nnn)⟩

/-- Settles O33: RET reads the entry that CALL has just written. -/
theorem returnUndoesCall : Obligations.ReturnUndoesCall := by
  intro nnn s t hroom h
  rw [exec_call_push hroom] at h
  cases h
  exact ⟨_, exec_ret_succ hroom rfl, Vector.getElem_set_self _, rfl⟩

end Sys2Proof.Claims
end

section
/-! SUPPORT. The flags and results of 43_alu.md as numbers, and the flagged writes in text order (R90, R97 to R101). -/

namespace Sys2Proof.Machine

variable (x y : Reg) (s : State)

/-! ## The meanings -/

theorem exec_addReg : exec (.addReg x y) s = .next (s.writeFlagged .textOrder x
    (fun _ => carryOut (s.getV x) (s.getV y)) (fun _ => sum8 (s.getV x) (s.getV y))) := by rfl

theorem exec_subReg : exec (.subReg x y) s = .next (s.writeFlagged .textOrder x
    (fun t => noBorrow (t.getV x) (t.getV y)) (fun t => diff8 (t.getV x) (t.getV y))) := by rfl

theorem exec_subnReg : exec (.subnReg x y) s = .next (s.writeFlagged .textOrder x
    (fun t => noBorrow (t.getV y) (t.getV x)) (fun t => diff8 (t.getV y) (t.getV x))) := by rfl

theorem exec_shr : exec (.shr x y) s = .next (s.writeFlagged .textOrder x
    (fun t => shrOut (t.getV x)) (fun t => shr8 (t.getV x))) := by rfl

theorem exec_shl : exec (.shl x y) s = .next (s.writeFlagged .textOrder x
    (fun t => shlOut (t.getV x)) (fun t => shl8 (t.getV x))) := by rfl

/-! ## Flags and results as numbers -/

@[simp] theorem boolByte_toNat (b : Bool) : (boolByte b).toNat = if b then 1 else 0 := by
  cases b <;> rfl

@[simp] theorem diff8_toNat (a b : Byte) : (diff8 a b).toNat = (a.toNat + 256 - b.toNat) % 256 := by
  have hb : b.toNat < 256 := b.isLt
  calc (diff8 a b).toNat = (a.toNat + (256 - b.toNat)) % 256 := (BitVec.toNat_ofNat _ _).trans (Nat.mod_mod _ _)
    _ = (a.toNat + 256 - b.toNat) % 256 := by rw [Nat.add_sub_assoc hb.le a.toNat]

theorem shr8_toNat (a : Byte) : (shr8 a).toNat = a.toNat / 2 := by
  rw [shr8, BitVec.toNat_ushiftRight, Nat.shiftRight_eq_div_pow]

theorem shl8_toNat (a : Byte) : (shl8 a).toNat = a.toNat * 2 % 256 := by
  rw [shl8, BitVec.toNat_shiftLeft, Nat.shiftLeft_eq]

theorem boolByte_shrOut_toNat (a : Byte) : (boolByte (shrOut a)).toNat = a.toNat % 2 := by
  revert a
  decide

theorem boolByte_shlOut_toNat (a : Byte) : (boolByte (shlOut a)).toNat = a.toNat / 128 := by
  revert a
  decide

/-! ## Flagged writes in text order -/

variable {x} (f : State → Bool) (g : State → Byte)

/-- The result is computed from the registers as the flag write left them. -/
theorem State.writeFlagged_text_result :
    (s.writeFlagged .textOrder x f g).getV x = g (s.setV VF (boolByte (f s))) := by
  rw [State.writeFlagged_text_getV, if_pos rfl]

theorem State.writeFlagged_text_flag (hx : x ≠ VF) :
    (s.writeFlagged .textOrder x f g).getV VF = boolByte (f s) := by
  rw [State.writeFlagged_text_getV, if_neg hx.symm, if_pos rfl]

/-- What an operand is worth after the flag write: the flag where it is `VF`. -/
theorem State.setV_VF_getV_toNat (v : Byte) (r : Reg) :
    ((s.setV VF v).getV r).toNat = if r = VF then v.toNat else (s.getV r).toNat := by
  rw [State.setV_getV, apply_ite BitVec.toNat]

/-- A subtraction in text order, for operands `a` and `b` in either order (R98, R100). -/
theorem State.writeFlagged_diff (a b : Reg) :
    ∃ t k, s.writeFlagged .textOrder x (fun u => noBorrow (u.getV a) (u.getV b))
        (fun u => diff8 (u.getV a) (u.getV b)) = t ∧
      k = (if (s.getV a).toNat ≥ (s.getV b).toNat then 1 else 0) ∧
      (t.getV x).toNat =
        ((if a = VF then k else (s.getV a).toNat) + 256 - (if b = VF then k else (s.getV b).toNat)) % 256 ∧
      (x ≠ VF → (t.getV VF).toNat = k) := by
  have hflag : (boolByte (noBorrow (s.getV a) (s.getV b))).toNat =
      if (s.getV a).toNat ≥ (s.getV b).toNat then 1 else 0 := by
    simp [noBorrow]
  refine ⟨_, _, rfl, rfl, ?_, fun hx => ?_⟩
  · rw [State.writeFlagged_text_result, diff8_toNat, State.setV_VF_getV_toNat, State.setV_VF_getV_toNat, hflag]
  · rw [State.writeFlagged_text_flag _ _ _ hx, hflag]

/-! ## The order of the two writes -/

theorem State.setV_comm {r q : Reg} (h : r ≠ q) (v w : Byte) : (s.setV r v).setV q w = (s.setV q w).setV r v := by
  have hV : ((s.setV r v).setV q w).V = ((s.setV q w).setV r v).V :=
    Vector.set_comm (hi := r.isLt) (hj := q.isLt) v w (Fin.val_ne_of_ne h)
  exact congrArg s.setRegs hV

/-- Where `VF` is not the destination and the flag write does not touch the operands, either order gives the same
state (R90). -/
theorem State.writeFlagged_order (o : FlagOrder) (hx : x ≠ VF)
    (hg : ∀ v, g (s.setV VF v) = g s) : s.writeFlagged o x f g = s.writeFlagged .textOrder x f g := by
  cases o
  case textOrder => rfl
  case flagLast =>
    simp only [State.writeFlagged, hg]
    exact State.setV_comm s hx _ _

end Sys2Proof.Machine

namespace Sys2Proof.Claims

open Sys2Proof.Machine

theorem onlyRegs_writeFlagged (s : State) (o : FlagOrder) (x : Reg) (f : State → Bool) (g : State → Byte) :
    OnlyRegs [x, VF] s (s.writeFlagged o x f g) := by
  refine ⟨(fixedBut_writeFlagged s o x f g).sameBut, fun r hr => ?_⟩
  obtain ⟨hrx, hrf⟩ : r ≠ x ∧ r ≠ VF := by simpa using hr
  cases o
  case textOrder => rw [State.writeFlagged_text_getV, if_neg hrx, if_neg hrf]
  case flagLast => rw [State.writeFlagged_last_getV, if_neg hrf, if_neg hrx]

end Sys2Proof.Claims
end

section
/-! THE STATEMENTS OF 43_alu.md: the instructions that write a flag. -/

namespace Sys2Proof.Claims

open Sys2Proof.Machine

/-- Settles O39: the sum and the carry are those of the old operands, and the sum is written last (R97). -/
theorem addRegistersSetsCarry : Obligations.AddRegistersSetsCarry := by
  refine ⟨row_addReg, fun x y s => ⟨_, exec_addReg x y s, ?_, fun hx => ?_, onlyRegs_writeFlagged s _ x _ _⟩⟩
  · rw [State.writeFlagged_text_result, sum8_toNat]
  · rw [State.writeFlagged_text_flag _ _ _ hx, boolByte_toNat]
    simp [carryOut]

/-- Settles O40: both subtractions are the same flagged write, with the operands exchanged (R98, R100). -/
theorem subtractionsInTextOrder : Obligations.SubtractionsInTextOrder := by
  intro x y s
  constructor
  · obtain ⟨t, k, rfl, hk, hres, hflag⟩ := s.writeFlagged_diff (x := x) x y
    exact ⟨_, k, exec_subReg x y s, hk, hres, hflag, onlyRegs_writeFlagged s _ x _ _⟩
  · obtain ⟨t, k, rfl, hk, hres, hflag⟩ := s.writeFlagged_diff (x := x) y x
    exact ⟨_, k, exec_subnReg x y s, hk, hres, hflag, onlyRegs_writeFlagged s _ x _ _⟩

/-- Settles O41: the shift applies to `V[x]`, and where `x` is `VF` to the bit just written there (R99, R101). -/
theorem shiftsInPlaceInTextOrder : Obligations.ShiftsInPlaceInTextOrder := by
  intro x y s
  constructor
  · refine ⟨_, exec_shr x y s, fun hx => ⟨?_, ?_⟩, ?_, onlyRegs_writeFlagged s _ x _ _⟩
    · rw [State.writeFlagged_text_result, State.setV_getV_other hx, shr8_toNat]
    · rw [State.writeFlagged_text_flag _ _ _ hx, boolByte_shrOut_toNat]
    · rintro rfl
      rw [State.writeFlagged_text_result, State.setV_getV_same]
      cases shrOut (s.getV VF) <;> rfl
  · refine ⟨_, exec_shl x y s, fun hx => ⟨?_, ?_⟩, ?_, onlyRegs_writeFlagged s _ x _ _⟩
    · rw [State.writeFlagged_text_result, State.setV_getV_other hx, shl8_toNat]
    · rw [State.writeFlagged_text_flag _ _ _ hx, boolByte_shlOut_toNat]
    · rintro rfl
      rw [State.writeFlagged_text_result, State.setV_getV_same, shl8_toNat, boolByte_shlOut_toNat]
      have hbyte : (s.getV VF).toNat < 256 := (s.getV VF).isLt
      omega

/-- Settles O42: neither operand is `VF`, so the flag write leaves both, and the two writes commute (R90). -/
theorem flagOrderMattersOnlyForVF : Obligations.FlagOrderMattersOnlyForVF := by
  intro o x y s hx hy
  have hkeepx : ∀ v, (s.setV VF v).getV x = s.getV x := State.setV_getV_other hx
  have hkeepy : ∀ v, (s.setV VF v).getV y = s.getV y := State.setV_getV_other hy
  refine ⟨?add, ?sub, ?subn, ?shr, ?shl⟩
  case add =>
    rw [exec_addReg, State.writeFlagged_order s _ _ o hx (by simp [hkeepx, hkeepy])]
    simp only [State.writeFlagged, hkeepx, hkeepy]
  case sub => rw [exec_subReg, State.writeFlagged_order s _ _ o hx (by simp [hkeepx, hkeepy])]
  case subn => rw [exec_subnReg, State.writeFlagged_order s _ _ o hx (by simp [hkeepx, hkeepy])]
  case shr => rw [exec_shr, State.writeFlagged_order s _ _ o hx (by simp [hkeepx])]
  case shl => rw [exec_shl, State.writeFlagged_order s _ _ o hx (by simp [hkeepx])]

end Sys2Proof.Claims
end

section
/-! SUPPORT. The meaning of CXNN, and the frames of the updates of two pieces that the statements name
(44_index_jump_random.md R104). -/

namespace Sys2Proof.Machine

theorem exec_rnd (x : Reg) (nn : Byte) (s : State) :
    exec (.rnd x nn) s = .next (s.countDraw.setV x (Config.randomByte s.draws &&& nn)) := by rfl

end Sys2Proof.Machine

namespace Sys2Proof.Claims

open Sys2Proof.Machine

theorem sameRegsBut_setV (s : State) (x : Reg) (v : Byte) : SameRegsBut [x] s (s.setV x v) := (onlyRegs_setV s x v).2

end Sys2Proof.Claims
end

section
/-! THE STATEMENT OF 44_index_jump_random.md about CXNN. -/

namespace Sys2Proof.Claims

open Sys2Proof.Machine

/-- Settles O45: one draw is counted, and the byte drawn is masked bit by bit (R104). -/
theorem randomIsAMaskedFreshDraw : Obligations.RandomIsAMaskedFreshDraw := by
  intro x nn s
  refine ⟨_, exec_rnd x nn s, fun b => ?_, rfl, ?_, sameRegsBut_setV s.countDraw x _⟩
  · rw [State.setV_getV_same, BitVec.getLsbD_and]
  · exact (((fixedBut_countDraw s).trans (fixedBut_setV _ x _)).mono (by simp)).sameBut

end Sys2Proof.Claims
end

section
/-! SUPPORT. DXYN in the terms of the statements (45_draw.md R105 to R109). -/

namespace Sys2Proof.Claims

open Sys2Proof.Machine

variable {s t : State} {x y : Reg} {n : Nibble}

/-- DXYN whose drawn rows lie in memory: its next state, and what the canvas it writes holds. The sprite's bit on a
cell is, by definition, that of its rows from row 0 on. -/
theorem exec_drw_draws (hfits : SpriteFits s y n) :
    ∃ c : Canvas, exec (.drw x y n) s = .next ((s.setDisp c.disp).setV VF (boolByte c.hit)) ∧
      (∀ col row, col < 64 → row < 32 → c.cell col row = (s.cell col row ^^ spriteBit s x y n col row)) ∧
      (c.hit = true ↔ Collides s x y n) := by
  obtain ⟨c, hexec, hcell, hhit⟩ := exec_drw_fits (x := x) hfits
  exact ⟨c, hexec, hcell, hhit⟩

theorem fixedBut_drw (s : State) (c : Canvas) :
    FixedBut [.disp, .regs] s ((s.setDisp c.disp).setV VF (boolByte c.hit)) :=
  (fixedBut_setDisp s _).trans (fixedBut_setV _ VF _)

/-- The sprite, and whether it fits, depend on its two registers, `I` and memory only. -/
theorem spriteBit_congr (hx : t.getV x = s.getV x) (hy : t.getV y = s.getV y) (hI : t.I = s.I)
    (hbytes : ∀ a, t.byteAt a = s.byteAt a) (col row : Nat) :
    spriteBit t x y n col row = spriteBit s x y n col row := by
  simp only [spriteBit, hx, hy, hI, hbytes]

theorem spriteFits_congr (hy : t.getV y = s.getV y) (hI : t.I = s.I) : SpriteFits t y n ↔ SpriteFits s y n := by
  simp only [SpriteFits, hy, hI]

end Sys2Proof.Claims
end

section
/-! THE STATEMENTS OF 45_draw.md. -/

namespace Sys2Proof.Claims

open Sys2Proof.Machine

/-- Settles O46: DXYN writes the canvas of its sprite and the collision flag, and nothing else. -/
theorem drawXorsTheSprite : Obligations.DrawXorsTheSprite := by
  intro x y n s hfits
  obtain ⟨c, hexec, hcell, hhit⟩ := exec_drw_draws (x := x) hfits
  refine ⟨_, hexec, hcell, fun hc => ?_, fun hc => ?_, ((fixedBut_drw s c).mono (by simp)).sameBut,
    sameRegsBut_setV (s.setDisp c.disp) VF _⟩
  · rw [State.setV_getV_same, hhit.mpr hc]
    rfl
  · rw [State.setV_getV_same, Bool.eq_false_iff.mpr (fun h => hc (hhit.mp h))]
    rfl

/-- Settles O47: a drawn row outside memory is the fault, with nothing drawn. -/
theorem drawOutsideMemoryFaults : Obligations.DrawOutsideMemoryFaults :=
  fun _ _ _ s hout => ⟨_, exec_drw_outside hout, faultTaken_raiseFault s .memoryBounds _⟩

/-- Settles O48: neither coordinate is `VF`, so the second draw puts the same bits on the display as the first, and
the two cancel; a bit that met an off cell first meets an on cell then. -/
theorem drawingTwiceRestoresTheDisplay : Obligations.DrawingTwiceRestoresTheDisplay := by
  intro x y n s t hx hy hfits ht
  obtain ⟨t', ht', hcell, -, hmiss, hsame, hregs⟩ := drawXorsTheSprite x y n s hfits
  obtain rfl : t' = t := Host.Outcome.next.inj (ht'.symm.trans ht)
  have hxt : t'.getV x = s.getV x := hregs x (by simpa using hx)
  have hyt : t'.getV y = s.getV y := hregs y (by simpa using hy)
  have hI : t'.I = s.I := hsame .index (by simp)
  have hbit : ∀ col row, spriteBit t' x y n col row = spriteBit s x y n col row :=
    spriteBit_congr hxt hyt hI (hsame .mem (by simp))
  obtain ⟨u, hu, hcell', hhit', -⟩ := drawXorsTheSprite x y n t' ((spriteFits_congr hyt hI).mpr hfits)
  refine ⟨u, hu, fun col row hc hr => ?_, fun hnone ⟨col, row, hc, hr, hon⟩ => ⟨hmiss hnone, hhit' ?_⟩⟩
  · rw [hcell' col row hc hr, hcell col row hc hr, hbit, Bool.xor_assoc, Bool.xor_self, Bool.xor_false]
  · refine ⟨col, row, hc, hr, (hbit col row).trans hon, ?_⟩
    have hoff : s.cell col row = false := Bool.eq_false_iff.mpr (fun hs => hnone ⟨col, row, hc, hr, hon, hs⟩)
    rw [hcell col row hc hr, hoff, hon]
    rfl

end Sys2Proof.Claims
end

section
/-! SUPPORT. Reading a key, and the number of a key as a byte (46_keypad.md R110 to R112). -/

namespace Sys2Proof.Machine

variable (s : State)

theorem exec_skp (x : Reg) :
    exec (.skp x) s = .next ((s.readKey (s.getV x)).2.skipIf (s.readKey (s.getV x)).1) := by rfl

theorem exec_sknp (x : Reg) :
    exec (.sknp x) s = .next ((s.readKey (s.getV x)).2.skipIf (!(s.readKey (s.getV x)).1)) := by rfl

/-- Reading a key leaves the state, or counts a draw. -/
theorem State.readKey_state (v : Byte) : (s.readKey v).2 = s ∨ (s.readKey v).2 = s.countDraw := by
  unfold State.readKey
  split
  · exact .inl rfl
  · exact .inr rfl

theorem State.skipIf_not_pc (c : Bool) : (s.skipIf (!c)).pc = if c then s.pc else s.pc + 2#16 := by
  cases c <;> rfl

/-- A key's number as a byte keeps its value. -/
theorem regByte_toNat (k : Reg) : (regByte k).toNat = k.val := by
  revert k
  decide

end Sys2Proof.Machine

namespace Sys2Proof.Claims

open Sys2Proof.Machine

theorem fixedBut_readKey_skipIf (s : State) (v : Byte) (c : Bool) :
    FixedBut [.draws, .pc] s ((s.readKey v).2.skipIf c) := by
  rcases s.readKey_state v with h | h <;> rw [h]
  · exact (fixedBut_skipIf s c).mono (by simp)
  · exact (fixedBut_countDraw s).trans (fixedBut_skipIf _ c)

theorem fixedBut_countDraw_skipIf (s : State) (c : Bool) : FixedBut [.draws, .pc] s (s.countDraw.skipIf c) :=
  (fixedBut_countDraw s).trans (fixedBut_skipIf _ c)

end Sys2Proof.Claims
end

section
/-! THE STATEMENTS OF 46_keypad.md. -/

namespace Sys2Proof.Claims

open Sys2Proof.Machine

/-- Settles O49: the skip is on the key's flag, or on the draw, which is counted (R110, R111). -/
theorem keySkipsReadTheNamedKey : Obligations.KeySkipsReadTheNamedKey := by
  intro x s
  refine ⟨fun hnamed => ⟨?skp, ?sknp⟩, fun hother => ⟨?skpDraw, ?sknpDraw⟩⟩
  case skp => exact ⟨_, exec_skp_named hnamed, State.skipIf_pc s _, (fixedBut_skipIf s _).sameBut⟩
  case sknp => exact ⟨_, exec_sknp_named hnamed, State.skipIf_not_pc s _, (fixedBut_skipIf s _).sameBut⟩
  case skpDraw =>
    exact ⟨_, exec_skp_unnamed hother, State.skipIf_pc _ _, State.skipIf_draws _ _,
      ((fixedBut_countDraw_skipIf s _).mono (by simp)).sameBut⟩
  case sknpDraw =>
    exact ⟨_, exec_sknp_unnamed hother, State.skipIf_not_pc _ _, State.skipIf_draws _ _,
      ((fixedBut_countDraw_skipIf s _).mono (by simp)).sameBut⟩

/-- Settles O50: FX0A is its row; a pressed key ends the wait, and with none `pc` goes back (R112). -/
theorem keyWaitTakesTheLeastKeyOrWaits : Obligations.KeyWaitTakesTheLeastKeyOrWaits := by
  refine ⟨row_ldKey, fun x s => ⟨fun k hk hleast => ?pressed, fun hnone => ?waits⟩⟩
  case pressed =>
    refine ⟨_, exec_ldKey_pressed (State.lowestKey_eq_some.mpr ⟨hk, hleast⟩), ?_, rfl, ?_, ?_⟩
    · rw [State.setAwaiting_getV, State.setV_getV_same, regByte_toNat]
    · exact ((fixedBut_setV s x _).trans (fixedBut_setAwaiting _ false)).sameBut
    · exact sameRegsBut_setV s x _
  case waits =>
    exact ⟨_, exec_ldKey_none (State.lowestKey_eq_none.mpr hnone), rfl, rfl,
      ((fixedBut_setPc s _).trans (fixedBut_setAwaiting _ true)).sameBut⟩

end Sys2Proof.Claims
end

section
/-! SUPPORT. The meanings of FX07, FX15, FX18 and FX1E as one update each, and the tone (47_timers_index.md R114 to
R117, 60_exceptions.md R134). -/

namespace Sys2Proof.Machine

variable (x : Reg) (s : State)

theorem exec_ldFromDT : exec (.ldFromDT x) s = .next (s.setV x s.DT) := by rfl

theorem exec_ldDT : exec (.ldDT x) s = .next (s.setDT (s.getV x)) := by rfl

theorem exec_ldST : exec (.ldST x) s = .next (s.setST (s.getV x)) := by rfl

theorem exec_addI : exec (.addI x) s = .next (s.setI (s.I + byteWord (s.getV x))) := by rfl

/-- The tone is on exactly while `ST` is not 0 (R134). -/
theorem State.tone_iff : s.tone = true ↔ s.ST ≠ 0#8 := decide_eq_true_iff

end Sys2Proof.Machine
end

section
/-! THE STATEMENTS OF 47_timers_index.md: the timers and the index sum. -/

namespace Sys2Proof.Claims

open Sys2Proof.Machine

/-- Settles O51: each of the three is its row and one write of a whole byte (R114 to R116). -/
theorem timerLoadsMoveTheWholeTimer : Obligations.TimerLoadsMoveTheWholeTimer := by
  refine ⟨row_ldFromDT, row_ldDT, row_ldST, fun x s => ⟨?fromDT, ?dt, ?st⟩⟩
  case fromDT => exact ⟨_, exec_ldFromDT x s, s.setV_getV_same x _, onlyRegs_setV s x _⟩
  case dt => exact ⟨_, exec_ldDT x s, rfl, (fixedBut_setDT s _).sameBut⟩
  case st => exact ⟨_, exec_ldST x s, rfl, State.tone_iff _, (fixedBut_setST s _).sameBut⟩

/-- Settles O52: a 16-bit sum is the sum modulo 65536 (R117). -/
theorem addToIndexWrapsWithoutFlag : Obligations.AddToIndexWrapsWithoutFlag := by
  intro x s
  refine ⟨_, exec_addI x s, ?_, (fixedBut_setI s _).sameBut⟩
  rw [State.setI_I, BitVec.toNat_add, byteWord_toNat]

end Sys2Proof.Claims
end

section
/-! SUPPORT. The decimal digits of a byte as numbers (48_memory_ops.md R120). -/

namespace Sys2Proof.Machine

/-- Hundreds first. -/
theorem bcdDigits_toNat (v : Byte) :
    (bcdDigits v).map BitVec.toNat = [v.toNat / 100, v.toNat / 10 % 10, v.toNat % 10] := by
  have hv : v.toNat < 256 := v.isLt
  simp only [bcdDigits, List.map_cons, List.map_nil, BitVec.toNat_ofNat, List.cons.injEq, and_true]
  omega

theorem bcdDigits_getElem_toNat (v : Byte) (k : Nat) (hk : k < 3) :
    ((bcdDigits v)[k]'hk).toNat = [v.toNat / 100, v.toNat / 10 % 10, v.toNat % 10][k] := by
  simp only [← bcdDigits_toNat]
  exact (List.getElem_map _).symm

end Sys2Proof.Machine
end

section
/-! THE STATEMENTS OF 48_memory_ops.md. -/

namespace Sys2Proof.Claims

open Sys2Proof.Machine

/-- Settles O54: with room the three digits are stored and nothing else, else the fault is taken (R120). -/
theorem storeDecimalDigits : Obligations.StoreDecimalDigits := by
  intro x s
  refine ⟨fun hfits => ?stored, fun hout => ?fault⟩
  case stored =>
    obtain ⟨m, hexec, hdigits, hout, -⟩ := exec_ldB_fits (x := x) hfits
    have hdigit : ∀ k (hk : k < 3), (Memory.read m (s.I.toNat + k)).toNat = _ := fun k hk =>
      (congrArg BitVec.toNat (hdigits k hk)).trans (bcdDigits_getElem_toNat (s.getV x) k hk)
    exact ⟨_, hexec, hdigit 0 (by decide), hdigit 1 (by decide), hdigit 2 (by decide), hout,
      (fixedBut_setMem s m).sameBut⟩
  case fault => exact ⟨_, exec_ldB_outside hout, faultTaken_raiseFault s .memoryBounds _⟩

/-- Settles O55: with room the registers up to `x` are stored and nothing else, else the fault is taken (R121). -/
theorem storeRegistersFromIndex : Obligations.StoreRegistersFromIndex := by
  intro x s
  refine ⟨fun hfits => ?stored, fun hout => ?fault⟩
  case stored =>
    obtain ⟨m, hexec, hin, hout, -⟩ := exec_storeRegs_fits hfits
    refine ⟨_, hexec, hin, fun a ha => hout a (fun r hr => ?_), (fixedBut_setMem s m).sameBut⟩
    have hrx : r.val ≤ x.val := hr
    omega
  case fault => exact ⟨_, exec_storeRegs_outside hout, faultTaken_raiseFault s .memoryBounds _⟩

/-- Settles O56: with room the registers up to `x` are loaded and nothing else, else the fault is taken (R122). -/
theorem loadRegistersFromIndex : Obligations.LoadRegistersFromIndex := by
  intro x s
  refine ⟨fun hfits => ?loaded, fun hout => ?fault⟩
  case loaded =>
    obtain ⟨W, hexec, hin, hout⟩ := exec_loadRegs_fits hfits
    exact ⟨_, hexec, hin, fun r hr => hout r hr.not_ge, (fixedBut_setRegs s W).sameBut⟩
  case fault => exact ⟨_, exec_loadRegs_outside hout, faultTaken_raiseFault s .memoryBounds _⟩

end Sys2Proof.Claims
end

section
/-! SUPPORT. What memory holds after a reset, byte by byte (70_reset_and_hazards.md R141 to R143). -/

namespace Sys2Proof.Machine

variable {s : State} {rom : List Byte} {a : Nat}

theorem initialise_byteAt_low (h : a < 0x200) : (s.initialise rom).byteAt a = background a := by
  unfold State.byteAt
  by_cases hfits : rom.length ≤ 3584
  · rw [initialise_mem_fits hfits, read_cellsFrom_lt h]
  · rw [initialise_mem_rejected (by omega), read_nil]

theorem initialise_byteAt_rom (hfits : rom.length ≤ 3584) (k : Nat) (h : k < rom.length) :
    (s.initialise rom).byteAt (0x200 + k) = rom[k] := by
  rw [State.byteAt, initialise_mem_fits hfits, read_cellsFrom k h]

theorem initialise_byteAt_afterRom (hfits : rom.length ≤ 3584) (h : 0x200 + rom.length ≤ a) :
    (s.initialise rom).byteAt a = 0#8 := by
  rw [State.byteAt, initialise_mem_fits hfits, read_cellsFrom_ge h, background_eq_zero (by omega)]

theorem initialise_byteAt_rejected (hlong : 3584 < rom.length) (h : 0x200 ≤ a) :
    (s.initialise rom).byteAt a = 0#8 := by
  rw [State.byteAt, initialise_mem_rejected hlong, read_nil, background_eq_zero (by omega)]

theorem initialise_getV (r : Reg) : (s.initialise rom).getV r = 0#8 :=
  Vector.getElem_replicate r.isLt

theorem initialise_stack (k : Nat) (h : k < 12) : (s.initialise rom).stack[k] = 0#16 :=
  Vector.getElem_replicate h

theorem initialise_cell (col row : Nat) : (s.initialise rom).cell col row = false :=
  BitVec.getLsbD_zero

/-- After a reset with a ROM of two bytes or more that fits, the word at 0x200 is its first two bytes (R143). -/
theorem initialise_nextWord {hi lo : Byte} {rest : List Byte} (hfits : (hi :: lo :: rest).length ≤ 3584) :
    (s.initialise (hi :: lo :: rest)).nextWord = wordOfBytes hi lo :=
  congrArg₂ wordOfBytes (initialise_byteAt_rom hfits 0 (by simp)) (initialise_byteAt_rom hfits 1 (by simp))

end Sys2Proof.Machine
end

section
/-! SUPPORT. A tick, gated as a step is (60_exceptions.md R133). -/

namespace Sys2Proof.Machine

variable {s : State}

theorem tick_enabled (hrun : s.runState = .running) (hhalt : s.halt = .none) :
    s.tick = (s.setDT (countDown s.DT)).setST (countDown s.ST) :=
  if_pos (State.enabled_iff.mpr ⟨hrun, hhalt⟩)

theorem tick_disabled (h : ¬ (s.runState = .running ∧ s.halt = .none)) : s.tick = s :=
  if_neg (fun e => h (State.enabled_iff.mp e))

/-- A timer is off after a tick unless it was above 1. -/
theorem countDown_ne_zero_iff (v : Byte) : countDown v ≠ 0#8 ↔ 1 < v.toNat := by
  rw [ne_eq, ← BitVec.toNat_inj, countDown_toNat, BitVec.toNat_ofNat]
  omega

end Sys2Proof.Machine
end

section
/-! THE STATEMENTS OF 60_exceptions.md and 70_reset_and_hazards.md about the events beside the step. -/

namespace Sys2Proof.Claims

open Sys2Proof.Machine

/-- Settles O57: the gate of a tick is that of a step, and each timer counts down by one and stops at 0 (R133). -/
theorem tickCountsTimersDown : Obligations.TickCountsTimersDown := by
  intro s
  constructor
  · intro hrun hhalt
    refine ⟨_, congrArg _ (tick_enabled hrun hhalt), countDown_toNat s.DT, countDown_toNat s.ST,
      ((fixedBut_setDT s _).trans (fixedBut_setST _ _)).sameBut, ?_⟩
    rw [State.tone_iff, State.setST_ST, countDown_ne_zero_iff]
  · intro hoff
    exact congrArg _ (tick_disabled (not_enabled_of hoff))

/-- Settles O58: each of the three is one update of its own piece (R136, R139). -/
theorem hostEventsWriteOnlyTheirOwn : Obligations.HostEventsWriteOnlyTheirOwn :=
  fun s k => ⟨⟨_, rfl, rfl, (fixedBut_setRunState s _).sameBut⟩, ⟨_, rfl, rfl, (fixedBut_setRunState s _).sameBut⟩,
    ⟨_, rfl, rfl, (fixedBut_setKey s k).sameBut⟩⟩

/-- Settles O59: every field is that of `State.reset` but memory, `halt` and the count of draws, and memory is read
below 0x200, at the ROM, and past it (R141, R142). -/
theorem resetInitialisesTheWholeState : Obligations.ResetInitialisesTheWholeState := by
  intro s rom
  refine ⟨_, rfl, ?event, rfl, initialise_getV, rfl, rfl, initialise_stack, rfl, fun col row _ _ =>
    initialise_cell col row, rfl, rfl, rfl, rfl, rfl, rfl, rfl, ?font, ?low, ?fits, ?rejected⟩
  case event =>
    rintro r rfl
    rfl
  case font =>
    intro a ha
    rw [initialise_byteAt_low (by omega), font_getElem?_eq ha]
  case low =>
    intro a ha ha'
    rw [initialise_byteAt_low ha', background_eq_zero ha]
  case fits =>
    exact fun hfits => ⟨initialise_halt_fits hfits, initialise_byteAt_rom hfits,
      fun _ => initialise_byteAt_afterRom hfits⟩
  case rejected =>
    exact fun hlong => ⟨initialise_halt_rejected hlong, fun _ => initialise_byteAt_rejected hlong⟩

/-- Settles O15: reset leaves the gate open and `pc` at 0x200, where the ROM's first two bytes lie (R143). -/
theorem firstStepRunsFirstRomWord : Obligations.FirstStepRunsFirstRomWord := by
  intro s hi lo rest i hfits hdec
  have hfetch : (s.initialise (hi :: lo :: rest)).Fetchable := by
    show 0x200 + 1 < 4096
    decide
  have hword := congrArg decodeWord (initialise_nextWord (s := s) hfits)
  exact step_decoded rfl (initialise_halt_fits hfits) hfetch (hword.trans hdec)

end Sys2Proof.Claims
end

section
/-! SUPPORT. What a meaning can do, said once for every instruction: it takes its fault, exactly where that is due, or
it completes and writes no more than its own pieces (10_state.md, 60_exceptions.md R123). -/

namespace Sys2Proof.Claims

open Sys2Proof.Machine

/-- The pieces an instruction may write when it completes. -/
def writes : Instr → List Part
  | .sys _ => []
  | .cls => [.disp]
  | .ret => [.sp, .pc]
  | .jp _ | .jpV0 _ => [.pc]
  | .call _ => [.stack, .sp, .pc]
  | .seImm _ _ | .sneImm _ _ | .seReg _ _ | .sneReg _ _ => [.pc]
  | .ldImm _ _ | .addImm _ _ | .ldReg _ _ | .orReg _ _ | .andReg _ _ | .xorReg _ _ => [.regs]
  | .addReg _ _ | .subReg _ _ | .shr _ _ | .subnReg _ _ | .shl _ _ => [.regs]
  | .ldI _ | .addI _ | .ldF _ => [.index]
  | .rnd _ _ => [.draws, .regs]
  | .drw _ _ _ => [.disp, .regs]
  | .skp _ | .sknp _ => [.draws, .pc]
  | .ldKey _ => [.regs, .pc, .awaiting]
  | .ldFromDT _ | .loadRegs _ => [.regs]
  | .ldDT _ => [.delay]
  | .ldST _ => [.sound]
  | .ldB _ | .storeRegs _ => [.mem]

/-- Where an instruction takes its fault (R123). -/
def Faults : Instr → State → Prop
  | .ret, s => s.sp = 0
  | .call _, s => s.sp = 12
  | .drw _ y n, s => ¬ SpriteFits s y n
  | .ldB _, s => 4096 ≤ s.I.toNat + 2
  | .storeRegs x, s | .loadRegs x, s => 4096 ≤ s.I.toNat + x.val
  | _, _ => False

/-- The fault of an instruction that can take one (R123). -/
def faultKind : Instr → HaltCode
  | .ret => .stackUnderflow
  | .call _ => .stackOverflow
  | _ => .memoryBounds

/-- What a meaning that completes leaves alone, and that it keeps memory canonical. -/
structure Completes (i : Instr) (s t : State) : Prop where
  parts : FixedBut (writes i) s t
  regs : SameRegsBut (mayWrite i) s t
  bytes : ∀ a, ¬ stores i s a → t.byteAt a = s.byteAt a
  wf : Memory.wf s.mem = true → Memory.wf t.mem = true

/-- The two ways a meaning goes from `s` to `t`. -/
inductive ExecCase (i : Instr) (s t : State) : Prop where
  | faulted (hf : Faults i s) (ht : t = s.raiseFault (faultKind i) i)
  | completed (hok : ¬ Faults i s) (hc : Completes i s t)

variable {i : Instr} {s t : State} {p : Part}

/-! ## A meaning that completes -/

/-- Memory is not written. -/
theorem Completes.of_regs (hparts : FixedBut (writes i) s t) (hregs : SameRegsBut (mayWrite i) s t)
    (hmem : .mem ∉ writes i := by simp [writes]) : Completes i s t := by
  have hm : t.mem = s.mem := hparts .mem hmem
  exact ⟨hparts, hregs, fun a _ => congrArg (Memory.read · a) hm, fun hwf => hm ▸ hwf⟩

/-- Neither memory nor a register is written. -/
theorem Completes.of_parts (hparts : FixedBut (writes i) s t) (hregs : .regs ∉ writes i := by simp [writes])
    (hmem : .mem ∉ writes i := by simp [writes]) : Completes i s t :=
  .of_regs hparts (fun r _ => (hparts .regs hregs).same r) hmem

/-- One register is written, and nothing else. -/
theorem Completes.setV {x : Reg} (v : Byte) (hparts : .regs ∈ writes i := by simp [writes])
    (hregs : x ∈ mayWrite i := by simp [mayWrite]) (hmem : .mem ∉ writes i := by simp [writes]) :
    Completes i s (s.setV x v) :=
  .of_regs ((fixedBut_setV s x v).mono (by simpa using hparts))
    (fun r hr => State.setV_getV_other (fun e : r = x => hr (e ▸ hregs)) v) hmem

/-- A register and `VF` are written, and nothing else. -/
theorem Completes.writeFlagged {x : Reg} (f : State → Bool) (g : State → Byte) (hparts : writes i = [.regs] := by rfl)
    (hregs : mayWrite i = [x, VF] := by rfl) : Completes i s (s.writeFlagged .textOrder x f g) :=
  .of_regs (hparts ▸ fixedBut_writeFlagged s _ x f g) (hregs ▸ (onlyRegs_writeFlagged s _ x f g).2)
    (by simp [hparts])

/-- Only memory is written. -/
theorem Completes.setMem {m : Memory} (hparts : writes i = [.mem])
    (hbytes : ∀ a, ¬ stores i s a → Memory.read m a = s.byteAt a)
    (hwf : Memory.wf s.mem = true → Memory.wf m = true) : Completes i s (s.setMem m) :=
  ⟨hparts ▸ fixedBut_setMem s m, fun _ _ => rfl, hbytes, hwf⟩

/-! ## Every meaning -/

theorem sp_lt_of_ne_full {n : Fin 13} (h : n ≠ 12) : n.val < 12 := by
  omega

theorem exec_case (i : Instr) (s : State) : ∃ t, exec i s = .next t ∧ ExecCase i s t := by
  cases i
  case sys => exact ⟨_, exec_sys _ s, .completed id (.of_parts (fixedBut_refl s))⟩
  case cls => exact ⟨_, exec_cls s, .completed id (.of_parts (fixedBut_setDisp s _))⟩
  case ret =>
    by_cases h : s.sp = 0
    · exact ⟨_, exec_ret_empty (by simp [h]), .faulted h rfl⟩
    · have hpos : 0 < s.sp.val := Fin.pos_iff_ne_zero.mpr h
      exact ⟨_, exec_ret_open hpos,
        .completed h (.of_parts (fixedBut_ret s _ _))⟩
  case jp => exact ⟨_, exec_jp s _, .completed id (.of_parts (fixedBut_setPc s _))⟩
  case call =>
    by_cases h : s.sp = 12
    · exact ⟨_, exec_call_full (by simp [h]), .faulted h rfl⟩
    · exact ⟨_, exec_call_push (sp_lt_of_ne_full h),
        .completed h (.of_parts (fixedBut_call s _ _ _))⟩
  case seImm => exact ⟨_, exec_seImm _ _ s, .completed id (.of_parts (fixedBut_skipIf s _))⟩
  case sneImm => exact ⟨_, exec_sneImm _ _ s, .completed id (.of_parts (fixedBut_skipIf s _))⟩
  case seReg => exact ⟨_, exec_seReg _ _ s, .completed id (.of_parts (fixedBut_skipIf s _))⟩
  case sneReg => exact ⟨_, exec_sneReg _ _ s, .completed id (.of_parts (fixedBut_skipIf s _))⟩
  case ldImm => exact ⟨_, exec_ldImm _ _ s, .completed id (.setV _)⟩
  case addImm => exact ⟨_, exec_addImm _ _ s, .completed id (.setV _)⟩
  case ldReg => exact ⟨_, exec_ldReg _ _ s, .completed id (.setV _)⟩
  case orReg => exact ⟨_, exec_orReg _ _ s, .completed id (.setV _)⟩
  case andReg => exact ⟨_, exec_andReg _ _ s, .completed id (.setV _)⟩
  case xorReg => exact ⟨_, exec_xorReg _ _ s, .completed id (.setV _)⟩
  case addReg => exact ⟨_, exec_addReg _ _ s, .completed id (.writeFlagged _ _)⟩
  case subReg => exact ⟨_, exec_subReg _ _ s, .completed id (.writeFlagged _ _)⟩
  case shr => exact ⟨_, exec_shr _ _ s, .completed id (.writeFlagged _ _)⟩
  case subnReg => exact ⟨_, exec_subnReg _ _ s, .completed id (.writeFlagged _ _)⟩
  case shl => exact ⟨_, exec_shl _ _ s, .completed id (.writeFlagged _ _)⟩
  case ldI => exact ⟨_, exec_ldI _ s, .completed id (.of_parts (fixedBut_setI s _))⟩
  case jpV0 => exact ⟨_, exec_jpV0 _ s, .completed id (.of_parts (fixedBut_setPc s _))⟩
  case rnd =>
    exact ⟨_, exec_rnd _ _ s, .completed id (.of_regs ((fixedBut_countDraw s).trans (fixedBut_setV _ _ _))
      (sameRegsBut_setV s.countDraw _ _))⟩
  case drw x y n =>
    by_cases h : SpriteFits s y n
    · obtain ⟨c, hc, -⟩ := exec_drw_draws (x := x) h
      have hregs := sameRegsBut_setV (s.setDisp c.disp) VF (boolByte c.hit)
      exact ⟨_, hc, .completed (not_not_intro h) (.of_regs (fixedBut_drw s c) hregs)⟩
    · exact ⟨_, exec_drw_outside h, .faulted h rfl⟩
  case skp => exact ⟨_, exec_skp s _, .completed id (.of_parts (fixedBut_readKey_skipIf s _ _))⟩
  case sknp => exact ⟨_, exec_sknp s _, .completed id (.of_parts (fixedBut_readKey_skipIf s _ _))⟩
  case ldKey x =>
    cases h : s.lowestKey with
    | some k =>
      exact ⟨_, exec_ldKey_pressed h, .completed id (.of_regs
        (((fixedBut_setV s x _).trans (fixedBut_setAwaiting _ _)).mono (by simp [writes]))
        (sameRegsBut_setV s x _))⟩
    | none =>
      exact ⟨_, exec_ldKey_none h, .completed id (.of_regs
        (((fixedBut_setPc s _).trans (fixedBut_setAwaiting _ _)).mono (by simp [writes]))
        (fun _ _ => rfl))⟩
  case ldFromDT => exact ⟨_, exec_ldFromDT _ s, .completed id (.setV _)⟩
  case ldDT => exact ⟨_, exec_ldDT _ s, .completed id (.of_parts (fixedBut_setDT s _))⟩
  case ldST => exact ⟨_, exec_ldST _ s, .completed id (.of_parts (fixedBut_setST s _))⟩
  case addI => exact ⟨_, exec_addI _ s, .completed id (.of_parts (fixedBut_setI s _))⟩
  case ldF => exact ⟨_, exec_ldF _ s, .completed id (.of_parts (fixedBut_setI s _))⟩
  case ldB x =>
    by_cases h : s.I.toNat + 2 < 4096
    · obtain ⟨m, hexec, -, hout, hwf⟩ := exec_ldB_fits (x := x) h
      refine ⟨_, hexec, .completed h.not_ge (.setMem rfl (fun a ha => hout a ?_) hwf)⟩
      have ha' : ¬ (s.I.toNat ≤ a ∧ a ≤ s.I.toNat + 2) := ha
      omega
    · exact ⟨_, exec_ldB_outside (Nat.not_lt.mp h), .faulted (Nat.not_lt.mp h) rfl⟩
  case storeRegs x =>
    by_cases h : s.I.toNat + x.val < 4096
    · obtain ⟨m, hexec, -, hout, hwf⟩ := exec_storeRegs_fits h
      refine ⟨_, hexec, .completed h.not_ge (.setMem rfl (fun a ha => hout a (fun r hr => ?_)) hwf)⟩
      have ha' : ¬ (s.I.toNat ≤ a ∧ a ≤ s.I.toNat + x.val) := ha
      have hrx : r.val ≤ x.val := hr
      omega
    · exact ⟨_, exec_storeRegs_outside (Nat.not_lt.mp h), .faulted (Nat.not_lt.mp h) rfl⟩
  case loadRegs x =>
    by_cases h : s.I.toNat + x.val < 4096
    · obtain ⟨W, hexec, -, hout⟩ := exec_loadRegs_fits h
      exact ⟨_, hexec, .completed h.not_ge (.of_regs (fixedBut_setRegs s W)
        (fun r hr => hout r (fun hrx => hr ((mem_regsUpTo x r).mpr hrx))))⟩
    · exact ⟨_, exec_loadRegs_outside (Nat.not_lt.mp h), .faulted (Nat.not_lt.mp h) rfl⟩

/-- The inversion of every meaning. -/
theorem exec_cases (h : exec i s = .next t) : ExecCase i s t := by
  obtain ⟨t', ht', hcase⟩ := exec_case i s
  obtain rfl : t' = t := Host.Outcome.next.inj (ht'.symm.trans h)
  exact hcase

/-- A piece that an instruction does not write is fixed, whether it completes or faults; `pc` and the fault record
apart, which a fault writes. -/
theorem exec_fixed (h : exec i s = .next t) (hp : p ∉ writes i) (hpc : p ≠ .pc) (hfault : p ≠ .fault) :
    p.Fixed s t := by
  cases exec_cases h with
  | faulted _ ht => exact ht ▸ fixedBut_raiseFault s _ i p (by simp [hpc, hfault])
  | completed _ hc => exact hc.parts p hp

/-! ## Who writes a piece -/

theorem mem_writes_stack : .stack ∈ writes i ↔ ∃ nnn, i = .call nnn := by
  cases i <;> simp [writes]

theorem mem_writes_sp : .sp ∈ writes i ↔ i = .ret ∨ ∃ nnn, i = .call nnn := by
  cases i <;> simp [writes]

theorem mem_writes_disp : .disp ∈ writes i ↔ i = .cls ∨ ∃ x y n, i = .drw x y n := by
  cases i <;> simp [writes]

theorem mem_writes_delay : .delay ∈ writes i ↔ ∃ x, i = .ldDT x := by
  cases i <;> simp [writes]

theorem mem_writes_sound : .sound ∈ writes i ↔ ∃ x, i = .ldST x := by
  cases i <;> simp [writes]

theorem mem_writes_index :
    .index ∈ writes i ↔ (∃ nnn, i = .ldI nnn) ∨ (∃ x, i = .addI x) ∨ ∃ x, i = .ldF x := by
  cases i <;> simp [writes]

theorem mem_writes_awaiting : .awaiting ∈ writes i ↔ ∃ x, i = .ldKey x := by
  cases i <;> simp [writes]

theorem notMem_writes_keys : .keys ∉ writes i := by
  cases i <;> simp [writes]

theorem notMem_writes_run : .run ∉ writes i := by
  cases i <;> simp [writes]

theorem notMem_writes_fault : .fault ∉ writes i := by
  cases i <;> simp [writes]

theorem faultKind_cases (i : Instr) :
    faultKind i = .stackOverflow ∨ faultKind i = .stackUnderflow ∨ faultKind i = .memoryBounds := by
  cases i <;> simp [faultKind]

theorem faultKind_ne_none (i : Instr) : faultKind i ≠ .none := by
  rcases faultKind_cases i with h | h | h <;> simp [h]

end Sys2Proof.Claims
end

section
/-! THE STATEMENTS about what an instruction leaves alone (10_state.md, 20_memory.md section 1). -/

namespace Sys2Proof.Claims

open Sys2Proof.Machine

/-- Settles O19: a fault writes no register, and a meaning that completes only its own. -/
theorem onlyNamedRegistersChange : Obligations.OnlyNamedRegistersChange := by
  intro i s t h
  cases exec_cases h with
  | faulted _ ht => exact fun r _ => ht ▸ s.raiseFault_getV _ i r
  | completed _ hc => exact hc.regs

/-- Settles O20: a fault writes no byte, and a meaning that completes only those it stores to. -/
theorem onlyStoredBytesChange : Obligations.OnlyStoredBytesChange := by
  intro i s t h
  cases exec_cases h with
  | faulted _ ht => exact fun a _ => ht ▸ s.raiseFault_byteAt _ i a
  | completed _ hc => exact hc.bytes

/-- Settles O21: only CALL writes an entry, and only RET and CALL write `sp`. -/
theorem onlyCallAndReturnTouchTheStack : Obligations.OnlyCallAndReturnTouchTheStack := by
  intro i s t h
  refine ⟨fun hcall => ?other, ?call, fun hret hcall => ?sp⟩
  case other =>
    have hw : .stack ∉ writes i := fun hw => (mem_writes_stack.mp hw).elim hcall
    exact (exec_fixed h hw (by simp) (by simp)).same
  case call =>
    rintro ⟨nnn, rfl⟩ k hk hne
    by_cases hroom : s.sp.val < 12
    · rw [exec_call_push hroom] at h
      cases h
      exact Vector.getElem_set_ne hroom hk hne.symm
    · rw [exec_call_full hroom] at h
      cases h
      rfl
  case sp =>
    have hw : .sp ∉ writes i := fun hw => (mem_writes_sp.mp hw).elim hret (fun hc => hc.elim hcall)
    exact exec_fixed h hw (by simp) (by simp)

/-- Settles O22: no other instruction writes the display. -/
theorem onlyClearAndDrawChangeTheDisplay : Obligations.OnlyClearAndDrawChangeTheDisplay := by
  intro i s t h hcls hdrw
  have hw : .disp ∉ writes i := fun hw =>
    (mem_writes_disp.mp hw).elim hcls (fun ⟨x, y, n, hi⟩ => hdrw x y n hi)
  exact (exec_fixed h hw (by simp) (by simp)).same

/-- Settles O23: no other instruction writes the timers and `I`. -/
theorem timersAndIndexHaveTheirOwnWriters : Obligations.TimersAndIndexHaveTheirOwnWriters := by
  intro i s t h
  refine ⟨fun hdt => ?delay, fun hst => ?sound, fun hldI haddI hldF => ?index⟩
  case delay =>
    exact exec_fixed (p := .delay) h (fun hw => (mem_writes_delay.mp hw).elim hdt) (by simp) (by simp)
  case sound =>
    exact exec_fixed (p := .sound) h (fun hw => (mem_writes_sound.mp hw).elim hst) (by simp) (by simp)
  case index =>
    have hw : .index ∉ writes i := fun hw => by
      rcases mem_writes_index.mp hw with ⟨nnn, hi⟩ | ⟨x, hi⟩ | ⟨x, hi⟩
      · exact hldI nnn hi
      · exact haddI x hi
      · exact hldF x hi
    exact exec_fixed (p := .index) h hw (by simp) (by simp)

/-- Settles O24: no instruction writes the keypad or the run state, and the fault record is written only with a halt. -/
theorem hostStateIsReadOnlyToInstructions : Obligations.HostStateIsReadOnlyToInstructions := by
  intro i s t h
  refine ⟨exec_fixed (p := .keys) h notMem_writes_keys (by simp) (by simp),
    exec_fixed (p := .run) h notMem_writes_run (by simp) (by simp), fun hkey => ?awaiting, fun hsame hnone => ?record⟩
  case awaiting =>
    exact exec_fixed (p := .awaiting) h (fun hw => (mem_writes_awaiting.mp hw).elim hkey) (by simp) (by simp)
  case record =>
    cases exec_cases h with
    | faulted _ ht =>
      subst ht
      exact absurd (hsame.trans hnone) (faultKind_ne_none i)
    | completed _ hc => exact (hc.parts .fault notMem_writes_fault).2

end Sys2Proof.Claims
end

section
/-! SUPPORT. The fault a step takes (40_execution_cycle.md R74, 60_exceptions.md R123). -/

namespace Sys2Proof.Claims

open Sys2Proof.Machine

variable {i : Instr} {s t : State} {k : HaltCode}

/-- A fault depends on `sp`, `I` and the registers, which the advance leaves. -/
theorem faults_advance : Faults i s.advance ↔ Faults i s := by
  cases i <;> exact Iff.rfl

/-- A fault in a meaning is taken at the instruction's own address, with its word (R74). -/
theorem raiseFault_advance (s : State) (k : HaltCode) (i : Instr) :
    s.advance.raiseFault k i = s.takeFault k s.pc (encode i) := by
  rw [State.raiseFault, State.advance_pc, word_advance_rewind]
  rfl

/-- What the decoded instruction of a step does: its fault is that of the state before the step. -/
theorem exec_advance_cases (h : exec i s.advance = .next t) :
    (Faults i s ∧ t = s.takeFault (faultKind i) s.pc (encode i)) ∨ (¬ Faults i s ∧ Completes i s.advance t) := by
  cases exec_cases h with
  | faulted hf ht => exact .inl ⟨faults_advance.mp hf, ht.trans (raiseFault_advance s _ i)⟩
  | completed hok hc => exact .inr ⟨fun hf => hok (faults_advance.mpr hf), hc⟩

theorem Completes.halt_eq (hc : Completes i s.advance t) : t.halt = s.halt :=
  (hc.parts .fault notMem_writes_fault).1

/-- A step of a core that may act ends with a fault exactly where the fetch or the fetched instruction takes it. -/
theorem step_halt_iff (hrun : s.runState = .running) (hhalt : s.halt = .none) (h : step s = .next t)
    (hk : k ≠ .none) : t.halt = k ↔
      (¬ s.Fetchable ∧ k = .memoryBounds) ∨
      (s.Fetchable ∧ ∃ i, decodeWord s.nextWord = some i ∧ Faults i s ∧ faultKind i = k) := by
  cases step_cases h with
  | ignored hoff _ => exact absurd ⟨hrun, hhalt⟩ hoff
  | outside _ _ hf ht =>
    subst ht
    simp [hf, eq_comm]
  | unrecognized _ _ hf hd ht =>
    subst ht
    simp [hf, hd, hhalt, hk.symm]
  | decoded i _ _ hf hd hexec =>
    rcases exec_advance_cases hexec with ⟨hfault, rfl⟩ | ⟨hok, hc⟩
    · simp [hf, hd, hfault]
    · simp [hf, hd, hok, hc.halt_eq, hhalt, hk.symm]

theorem faultKind_ne_romTooLarge (i : Instr) : faultKind i ≠ .romTooLarge := by
  rcases faultKind_cases i with h | h | h <;> simp [h]

theorem faults_stackOverflow_iff :
    (Faults i s ∧ faultKind i = .stackOverflow) ↔ (∃ nnn, i = .call nnn) ∧ s.sp = 12 := by
  cases i <;> simp [Faults, faultKind]

theorem faults_stackUnderflow_iff : (Faults i s ∧ faultKind i = .stackUnderflow) ↔ i = .ret ∧ s.sp = 0 := by
  cases i <;> simp [Faults, faultKind]

theorem faults_memoryBounds_iff : (Faults i s ∧ faultKind i = .memoryBounds) ↔
    (∃ x y n, i = .drw x y n ∧ ¬ SpriteFits s y n) ∨
    (∃ x, i = .ldB x ∧ 4096 ≤ s.I.toNat + 2) ∨
    (∃ x, i = .storeRegs x ∧ 4096 ≤ s.I.toNat + x.val) ∨
    (∃ x, i = .loadRegs x ∧ 4096 ≤ s.I.toNat + x.val) := by
  cases i <;> simp [Faults, faultKind]

end Sys2Proof.Claims
end

section
/-! THE STATEMENTS OF 60_exceptions.md section 1. -/

namespace Sys2Proof.Claims

open Sys2Proof.Machine

/-- Settles O12: of the four ways a step goes, only the fetch fault and the fault of a meaning halt the core, and both
are taken at `pc` with nothing written. -/
theorem faultingStepIsUndone : Obligations.FaultingStepIsUndone := by
  intro s t hnone hstep hhalt
  cases step_cases hstep with
  | ignored _ ht => exact absurd hnone (ht ▸ hhalt)
  | outside _ _ hf ht =>
    subst ht
    exact ⟨(fixedBut_takeFault s _ _).sameBut, rfl, fun hin => absurd hin hf, fun _ => rfl, .inr (.inr rfl)⟩
  | unrecognized _ _ _ _ ht => subst ht; exact absurd hnone hhalt
  | decoded i _ _ hf hd hexec =>
    rcases exec_advance_cases hexec with ⟨-, rfl⟩ | ⟨-, hc⟩
    · exact ⟨(fixedBut_takeFault s _ _).sameBut, rfl, fun _ => encode_of_decodeWord hd,
        fun hout => absurd hf (Nat.not_lt.mpr hout), faultKind_cases i⟩
    · exact absurd (hc.halt_eq.trans hnone) hhalt

/-- Settles O13: a step ends with a kind exactly where its fetch or its instruction takes that fault (R123). -/
theorem stepFaultsExactlyWhen : Obligations.StepFaultsExactlyWhen := by
  intro s t hrun hhalt h
  refine ⟨?overflow, ?underflow, ?bounds, ?rom⟩
  case overflow =>
    rw [step_halt_iff hrun hhalt h (by simp)]
    simp [faults_stackOverflow_iff]
  case underflow =>
    rw [step_halt_iff hrun hhalt h (by simp)]
    simp [faults_stackUnderflow_iff]
  case bounds =>
    rw [step_halt_iff hrun hhalt h (by simp)]
    by_cases hf : s.Fetchable
    · cases hd : decodeWord s.nextWord with
      | none => simp [hf]
      | some i => simp [hf, faults_memoryBounds_iff]
    · simp [hf]
  case rom =>
    rw [ne_eq, step_halt_iff hrun hhalt h (by simp)]
    rintro (⟨-, hk⟩ | ⟨-, i, -, -, hk⟩)
    · cases hk
    · exact faultKind_ne_romTooLarge i hk

end Sys2Proof.Claims
end

section
/-! SUPPORT. Two runs of one meaning: the stack entries, where the instruction is not RET or CALL, and the sound timer,
where it is not FX18, are handed through unread (10_state.md R19, R24). -/

namespace Sys2Proof.Machine

variable {i : Instr} {s t u : State}

/-- The state with other stack entries and another sound timer. -/
def State.withUnread (s : State) (es : Vector Word 12) (v : Byte) : State := (s.setStack es).setST v

theorem State.withUnread_skipIf (s : State) (es : Vector Word 12) (v : Byte) (b : Bool) :
    (s.withUnread es v).skipIf b = (s.skipIf b).withUnread es v := by
  cases b <;> rfl

theorem State.withUnread_readKey (s : State) (es : Vector Word 12) (v k : Byte) :
    (s.withUnread es v).readKey k = ((s.readKey k).1, (s.readKey k).2.withUnread es v) := by
  unfold State.readKey
  split <;> rfl

/-! ## The meanings by what their operation answers -/

variable {x y : Reg} {n : Nibble} {m : Memory}

theorem exec_drw_of_some {c : Canvas} (h : s.drawSprite hw.addrOob x y n = some c) :
    exec (.drw x y n) s = .next ((s.setDisp c.disp).setV VF (boolByte c.hit)) := by
  show execDrw x y n s = _
  unfold execDrw
  rw [h]

theorem exec_drw_of_none (h : s.drawSprite hw.addrOob x y n = none) :
    exec (.drw x y n) s = .next (s.raiseFault .memoryBounds (.drw x y n)) := by
  show execDrw x y n s = _
  unfold execDrw
  rw [h]

theorem exec_ldB_of_some (h : storeBytes hw.addrOob s.I.toNat (bcdDigits (s.getV x)) s.mem = some m) :
    exec (.ldB x) s = .next (s.setMem m) := by
  show execLdB x s = _
  unfold execLdB
  rw [hw_memOps, h]

theorem exec_ldB_of_none (h : storeBytes hw.addrOob s.I.toNat (bcdDigits (s.getV x)) s.mem = none) :
    exec (.ldB x) s = .next (s.raiseFault .memoryBounds (.ldB x)) := by
  show execLdB x s = _
  unfold execLdB
  rw [hw_memOps, h]

theorem exec_storeRegs_of_some (h : storeRun hw.addrOob s.V s.I.toNat (regsUpTo x) s.mem = some m) :
    exec (.storeRegs x) s = .next ((s.setMem m).setI (indexAfter hw.lsI s.I x)) := by
  show execStoreRegs x s = _
  unfold execStoreRegs
  rw [hw_memOps, h]

theorem exec_storeRegs_of_none (h : storeRun hw.addrOob s.V s.I.toNat (regsUpTo x) s.mem = none) :
    exec (.storeRegs x) s = .next (s.raiseFault .memoryBounds (.storeRegs x)) := by
  show execStoreRegs x s = _
  unfold execStoreRegs
  rw [hw_memOps, h]

theorem exec_loadRegs_of_some {W : Vector Byte 16}
    (h : loadRun hw.addrOob s.mem s.I.toNat (regsUpTo x) s.V = some W) :
    exec (.loadRegs x) s = .next ((s.setRegs W).setI (indexAfter hw.lsI s.I x)) := by
  show execLoadRegs x s = _
  unfold execLoadRegs
  rw [hw_memOps, h]

theorem exec_loadRegs_of_none (h : loadRun hw.addrOob s.mem s.I.toNat (regsUpTo x) s.V = none) :
    exec (.loadRegs x) s = .next (s.raiseFault .memoryBounds (.loadRegs x)) := by
  show execLoadRegs x s = _
  unfold execLoadRegs
  rw [hw_memOps, h]

/-! ## Other stack entries and another sound timer -/

theorem exec_next_unique (h : exec i s = .next t) (h' : exec i s = .next u) : t = u :=
  Host.Outcome.next.inj (h.symm.trans h')

/-- An instruction other than RET, CALL and FX18 does the same with other stack entries and another sound timer: what
its operation answers does not depend on them. -/
theorem exec_withUnread (es : Vector Word 12) (v : Byte) (hret : i ≠ .ret) (hcall : ∀ nnn, i ≠ .call nnn)
    (hst : ∀ x, i ≠ .ldST x) (h : exec i s = .next t) : exec i (s.withUnread es v) = .next (t.withUnread es v) := by
  cases i
  case ret => exact absurd rfl hret
  case call nnn => exact absurd rfl (hcall nnn)
  case ldST x => exact absurd rfl (hst x)
  case seImm => cases h; exact congrArg _ (State.withUnread_skipIf s es v _)
  case sneImm => cases h; exact congrArg _ (State.withUnread_skipIf s es v _)
  case seReg => cases h; exact congrArg _ (State.withUnread_skipIf s es v _)
  case sneReg => cases h; exact congrArg _ (State.withUnread_skipIf s es v _)
  case skp x =>
    cases h
    rw [exec_skp, State.withUnread_readKey, State.withUnread_skipIf]
    rfl
  case sknp x =>
    cases h
    rw [exec_sknp, State.withUnread_readKey, State.withUnread_skipIf]
    rfl
  case drw x y n =>
    cases hd : s.drawSprite hw.addrOob x y n with
    | some c =>
      obtain rfl := exec_next_unique h (exec_drw_of_some hd)
      exact exec_drw_of_some (s := s.withUnread es v) hd
    | none =>
      obtain rfl := exec_next_unique h (exec_drw_of_none hd)
      exact exec_drw_of_none (s := s.withUnread es v) hd
  case ldKey x =>
    cases hkey : s.lowestKey with
    | some k =>
      obtain rfl := exec_next_unique h (exec_ldKey_pressed hkey)
      exact exec_ldKey_pressed (s := s.withUnread es v) hkey
    | none =>
      obtain rfl := exec_next_unique h (exec_ldKey_none hkey)
      exact exec_ldKey_none (s := s.withUnread es v) hkey
  case ldB x =>
    cases hs : storeBytes hw.addrOob s.I.toNat (bcdDigits (s.getV x)) s.mem with
    | some m =>
      obtain rfl := exec_next_unique h (exec_ldB_of_some hs)
      exact exec_ldB_of_some (s := s.withUnread es v) hs
    | none =>
      obtain rfl := exec_next_unique h (exec_ldB_of_none hs)
      exact exec_ldB_of_none (s := s.withUnread es v) hs
  case storeRegs x =>
    cases hs : storeRun hw.addrOob s.V s.I.toNat (regsUpTo x) s.mem with
    | some m =>
      obtain rfl := exec_next_unique h (exec_storeRegs_of_some hs)
      exact exec_storeRegs_of_some (s := s.withUnread es v) hs
    | none =>
      obtain rfl := exec_next_unique h (exec_storeRegs_of_none hs)
      exact exec_storeRegs_of_none (s := s.withUnread es v) hs
  case loadRegs x =>
    cases hl : loadRun hw.addrOob s.mem s.I.toNat (regsUpTo x) s.V with
    | some W =>
      obtain rfl := exec_next_unique h (exec_loadRegs_of_some hl)
      exact exec_loadRegs_of_some (s := s.withUnread es v) hl
    | none =>
      obtain rfl := exec_next_unique h (exec_loadRegs_of_none hl)
      exact exec_loadRegs_of_none (s := s.withUnread es v) hl
  all_goals cases h; rfl

end Sys2Proof.Machine

namespace Sys2Proof.Claims

open Sys2Proof.Machine

variable {i : Instr} {s s' t : State} {es : Vector Word 12} {v : Byte}

/-! ## The sound timer -/

theorem withUnread_sound (h : t.stack = s.stack) : t.withUnread s.stack v = t.setST v := by
  rw [← h]
  rfl

/-- An instruction other than FX18 does the same with another sound timer. -/
theorem exec_setST (v : Byte) (hst : ∀ x, i ≠ .ldST x) (h : exec i s = .next t) :
    exec i (s.setST v) = .next (t.setST v) := by
  cases i
  case ret =>
    by_cases hopen : 0 < s.sp.val
    · rw [exec_ret_open hopen] at h
      cases h
      exact exec_ret_open (s := s.setST v) hopen
    · rw [exec_ret_empty hopen] at h
      cases h
      exact exec_ret_empty (s := s.setST v) hopen
  case call =>
    by_cases hroom : s.sp.val < 12
    · rw [exec_call_room hroom] at h
      cases h
      exact exec_call_room (s := s.setST v) hroom
    · rw [exec_call_full hroom] at h
      cases h
      exact exec_call_full (s := s.setST v) hroom
  all_goals
    have hstack : t.stack = s.stack := exec_fixed (p := .stack) h (by simp [writes]) (by simp) (by simp)
    rw [← withUnread_sound hstack]
    exact exec_withUnread s.stack v (by simp) (by simp) hst h

/-! ## Dead stack entries -/

theorem withUnread_stack (h : t.ST = s.ST) : t.withUnread es s.ST = t.setStack es := by
  rw [← h]
  rfl

/-- An instruction other than RET and CALL does the same with other stack entries. -/
theorem exec_setStack (es : Vector Word 12) (hret : i ≠ .ret) (hcall : ∀ nnn, i ≠ .call nnn)
    (h : exec i s = .next t) : exec i (s.setStack es) = .next (t.setStack es) := by
  by_cases hst : ∃ x, i = .ldST x
  · obtain ⟨x, rfl⟩ := hst
    cases h
    rfl
  · have hw : .sound ∉ writes i := fun hw => hst (mem_writes_sound.mp hw)
    have hsound : t.ST = s.ST := exec_fixed (p := .sound) h hw (by simp) (by simp)
    rw [← withUnread_stack hsound]
    exact exec_withUnread es s.ST hret hcall (not_exists.mp hst) h

/-- The entries that open calls use are those of the state. -/
def LiveSame (s : State) (es : Vector Word 12) : Prop :=
  ∀ (k : Nat) (hk : k < 12), k < s.sp.val → es[k]'hk = s.stack[k]'hk

/-- A state that differs in dead stack entries alone is the state with other stack entries. -/
theorem SameUpToDeadStack.eq_setStack (h : SameUpToDeadStack s s') : s' = s.setStack s'.stack := by
  obtain ⟨hsame, hdisp, hmem, -⟩ := h
  have hV : s'.V = s.V := regs_ext (hsame .regs (by simp))
  obtain ⟨hhalt, hfpc, hfop⟩ := hsame .fault (by simp)
  apply State.ext
  case V => exact hV
  case I => exact hsame .index (by simp)
  case pc => exact hsame .pc (by simp)
  case stack => rfl
  case sp => exact hsame .sp (by simp)
  case disp => exact hdisp
  case key => exact hsame .keys (by simp)
  case DT => exact hsame .delay (by simp)
  case ST => exact hsame .sound (by simp)
  case mem => exact hmem
  case runState => exact hsame .run (by simp)
  case awaitingKey => exact hsame .awaiting (by simp)
  case halt => exact hhalt
  case faultPc => exact hfpc
  case faultOp => exact hfop
  case draws => exact hsame .draws (by simp)

theorem sameUpToDeadStack_setStack (h : LiveSame s es) : SameUpToDeadStack s (s.setStack es) :=
  ⟨((fixedBut_setStack s es).mono (by simp)).sameBut, rfl, rfl, h⟩

/-- RET reads a live entry, and makes it dead. -/
theorem exec_ret_setStack (h : LiveSame s es)
    (ht : exec .ret s = .next t) : ∃ t', exec .ret (s.setStack es) = .next t' ∧ SameUpToDeadStack t t' := by
  by_cases hopen : 0 < s.sp.val
  · obtain ⟨k, hk⟩ : ∃ k, s.sp.val = k + 1 := ⟨s.sp.val - 1, by omega⟩
    have hk12 : k < 12 := by omega
    rw [exec_ret_succ hk12 hk] at ht
    cases ht
    refine ⟨_, exec_ret_succ (s := s.setStack es) hk12 hk, ?_⟩
    rw [show (s.setStack es).stack[k] = s.stack[k] from h k hk12 (by omega)]
    exact sameUpToDeadStack_setStack fun j hj hlive => h j hj (by
      have hlive' : j < k := hlive
      omega)
  · rw [exec_ret_empty hopen] at ht
    cases ht
    exact ⟨_, exec_ret_empty (s := s.setStack es) hopen, sameUpToDeadStack_setStack h⟩

/-- CALL writes the same entry in both runs, and makes it live. -/
theorem exec_call_setStack {nnn : Imm12} (h : LiveSame s es)
    (ht : exec (.call nnn) s = .next t) :
    ∃ t', exec (.call nnn) (s.setStack es) = .next t' ∧ SameUpToDeadStack t t' := by
  by_cases hroom : s.sp.val < 12
  · rw [exec_call_push hroom] at ht
    cases ht
    refine ⟨_, exec_call_push (s := s.setStack es) hroom, ?_⟩
    refine sameUpToDeadStack_setStack (es := es.set s.sp.val s.pc hroom) fun j hj hlive => ?_
    have hlive' : j < s.sp.val + 1 := hlive
    show (es.set s.sp.val s.pc hroom)[j] = (s.stack.set s.sp.val s.pc hroom)[j]
    by_cases hj' : j = s.sp.val
    · subst hj'
      rw [Vector.getElem_set_self, Vector.getElem_set_self]
    · rw [Vector.getElem_set_ne hroom hj (Ne.symm hj'), Vector.getElem_set_ne hroom hj (Ne.symm hj'),
        h j hj (by omega)]
  · rw [exec_call_full hroom] at ht
    cases ht
    exact ⟨_, exec_call_full (s := s.setStack es) hroom, sameUpToDeadStack_setStack h⟩

end Sys2Proof.Claims
end

section
/-! THE STATEMENTS about what no instruction reads (10_state.md sections 4, 7 and 12). -/

namespace Sys2Proof.Claims

open Sys2Proof.Machine

/-- Settles O25: FX18 overwrites the sound timer, and every other instruction hands it through. -/
theorem soundTimerIsNeverRead : Obligations.SoundTimerIsNeverRead := by
  intro i s v
  obtain ⟨t, ht⟩ := exec_answers_next i s
  refine ⟨t, ht, fun hst => exec_setST v hst ht, ?_⟩
  rintro ⟨x, rfl⟩
  cases ht
  rfl

/-- Settles O26: RET reads only the entry below `sp`, CALL writes the one at `sp`, and every other instruction hands
the entries through. -/
theorem deadStackEntriesAreNeverRead : Obligations.DeadStackEntriesAreNeverRead := by
  intro i s s' t hss ht
  have hlive : LiveSame s s'.stack := by
    obtain ⟨-, -, -, hlive⟩ := hss
    exact hlive
  rw [hss.eq_setStack]
  by_cases hret : i = .ret
  · subst hret
    exact exec_ret_setStack hlive ht
  by_cases hcall : ∃ nnn, i = .call nnn
  · obtain ⟨nnn, rfl⟩ := hcall
    exact exec_call_setStack hlive ht
  · have hcall' : ∀ nnn, i ≠ .call nnn := not_exists.mp hcall
    obtain ⟨hother, -, hsp⟩ := onlyCallAndReturnTouchTheStack i s t ht
    refine ⟨_, exec_setStack s'.stack hret hcall' ht, sameUpToDeadStack_setStack fun k hk hkt => ?_⟩
    rw [hlive k hk (hsp hret hcall' ▸ hkt), hother hcall' k hk]

end Sys2Proof.Claims
end

section
/-! SUPPORT. Who changes `awaiting_key`: no step but one at an FX0A word (46_keypad.md R113). -/

namespace Sys2Proof.Claims

open Sys2Proof.Machine

variable {s t : State}

theorem step_awaitingKey (h : step s = .next t) (hkey : ∀ x, decodeWord s.nextWord ≠ some (.ldKey x)) :
    t.awaitingKey = s.awaitingKey := by
  cases step_cases h with
  | ignored _ ht => rw [ht]
  | outside _ _ _ ht => rw [ht, State.takeFault_awaitingKey]
  | unrecognized _ _ _ _ ht => rw [ht, State.advance_awaitingKey]
  | decoded i _ _ _ hd hexec =>
    have hw : .awaiting ∉ writes i := fun hw => by
      obtain ⟨x, rfl⟩ := mem_writes_awaiting.mp hw
      exact hkey x hd
    exact exec_fixed (s := s.advance) (p := .awaiting) hexec hw (by simp) (by simp)

theorem fixedBut_tick (s : State) : FixedBut [.delay, .sound] s s.tick := by
  by_cases hon : s.runState = .running ∧ s.halt = .none
  · rw [tick_enabled hon.1 hon.2]
    exact (fixedBut_setDT s _).trans (fixedBut_setST _ _)
  · rw [tick_disabled hon]
    exact (fixedBut_refl s).mono (by simp)

end Sys2Proof.Claims
end

section
/-! THE STATEMENT OF 46_keypad.md about `awaiting_key`. -/

namespace Sys2Proof.Claims

open Sys2Proof.Machine

/-- Settles O27, event by event. -/
theorem awaitingChangesOnlyAtKeyWaitOrReset : Obligations.AwaitingChangesOnlyAtKeyWaitOrReset := by
  intro s t e h hreset hkey
  cases e
  case step => exact step_awaitingKey h (hkey rfl)
  case tick =>
    cases h
    exact fixedBut_tick s .awaiting (by simp)
  case reset rom => exact absurd rfl (hreset rom)
  all_goals
    cases h
    rfl

end Sys2Proof.Claims
end

section
/-! SUPPORT. The invariant: what it reads, and the three ways a state that meets it goes on (a piece it does not read
changes, a fault is taken, a core that may act acts). -/

namespace Sys2Proof.Claims

open Sys2Proof.Machine

variable {i : Instr} {s t : State}

/-! ## Pieces the invariant does not read -/

theorem nextWord_congr (hpc : t.pc = s.pc) (hmem : t.mem = s.mem) : t.nextWord = s.nextWord := by
  simp only [State.nextWord, State.wordAt, State.byteAt, hpc, hmem]

/-- The invariant reads neither timers, keypad nor run state. -/
theorem inv_of_fixedBut (hinv : s.Inv) (h : FixedBut [.delay, .sound, .keys, .run] s t) : t.Inv := by
  have hpc : t.pc = s.pc := h .pc (by simp)
  have hstack : t.stack = s.stack := h .stack (by simp)
  have hsp : t.sp = s.sp := h .sp (by simp)
  have hmem : t.mem = s.mem := h .mem (by simp)
  have hawait : t.awaitingKey = s.awaitingKey := h .awaiting (by simp)
  obtain ⟨hhalt, hfpc, hfop⟩ := h .fault (by simp)
  refine ⟨?canonical, ?waits, ?bounded, ?clear, ?fits⟩
  case canonical =>
    rw [State.MemCanonical, hmem]
    exact hinv.memCanonical
  case waits =>
    rw [State.WaitsAtKeyWord, State.Fetchable, nextWord_congr hpc hmem, hawait, hpc]
    exact hinv.waitsAtKeyWord
  case bounded =>
    simp only [State.AddressesBounded, hpc, hstack, hsp]
    exact hinv.addressesBounded
  case clear =>
    rw [State.RecordClear, hhalt, hfpc, hfop]
    exact hinv.recordClear
  case fits =>
    rw [State.RecordFits, hhalt, hpc, hfpc, hfop]
    exact hinv.recordFits

/-! ## A fault -/

/-- A fault taken at `pc` records `pc` and a kind of a step (R74). -/
theorem inv_takeFault {k : HaltCode} {op : Word} (hinv : s.Inv) (hnone : k ≠ .none) (hrom : k ≠ .romTooLarge) :
    (s.takeFault k s.pc op).Inv where
  memCanonical := hinv.memCanonical
  waitsAtKeyWord := hinv.waitsAtKeyWord
  addressesBounded := hinv.addressesBounded
  recordClear := fun h => absurd h hnone
  recordFits := ⟨fun _ => rfl, fun h => absurd h hrom⟩

/-! ## A core that may act -/

/-- A core that is not halted keeps the invariant when it leaves the fault record. -/
theorem inv_of_running (hinv : s.Inv) (hhalt : s.halt = .none) (hfault : Part.fault.Fixed s t) (hmem : t.MemCanonical)
    (hwait : t.WaitsAtKeyWord) (hbound : t.AddressesBounded) : t.Inv := by
  obtain ⟨hthalt, hfpc, hfop⟩ := hfault
  have hnone : t.halt = .none := hthalt.trans hhalt
  refine ⟨hmem, hwait, hbound, fun _ => ?_, ?_⟩
  · rw [hfpc, hfop]
    exact hinv.recordClear hhalt
  · simp [State.RecordFits, hnone]

/-- A core at a word that is not FX0A does not wait. -/
theorem awaitingKey_eq_false (hinv : s.Inv) (hkey : ∀ x, decodeWord s.nextWord ≠ some (.ldKey x)) :
    s.awaitingKey = false := by
  refine Bool.eq_false_iff.mpr fun hwait => ?_
  obtain ⟨-, x, hx⟩ := hinv.waitsAtKeyWord hwait
  exact hkey x hx

theorem waitsAtKeyWord_of_awaitingKey_eq_false (h : t.awaitingKey = false) : t.WaitsAtKeyWord := fun hwait => by
  cases h.symm.trans hwait

/-- After a step of a core that may act, a core that waits is at an FX0A word: at another word it did not wait before,
and FX0A goes back to its own address. -/
theorem waitsAtKeyWord_of_step (hinv : s.Inv) (hf : s.Fetchable) (hd : decodeWord s.nextWord = some i)
    (h : exec i s.advance = .next t) (hstep : step s = .next t) : t.WaitsAtKeyWord := by
  by_cases hkey : ∃ x, i = .ldKey x
  · obtain ⟨x, rfl⟩ := hkey
    cases hk : s.advance.lowestKey with
    | some k =>
      rw [exec_ldKey_pressed hk] at h
      cases h
      exact waitsAtKeyWord_of_awaitingKey_eq_false rfl
    | none =>
      rw [exec_ldKey_none hk] at h
      cases h
      have hpc : (s.advance.rewind.setAwaiting true).pc = s.pc := word_advance_rewind s.pc
      intro _
      rw [State.Fetchable, nextWord_congr hpc rfl, hpc]
      exact ⟨hf, x, hd⟩
  · have hne : ∀ x, decodeWord s.nextWord ≠ some (.ldKey x) := fun x hx =>
      hkey ⟨x, Option.some.inj (hd.symm.trans hx)⟩
    exact waitsAtKeyWord_of_awaitingKey_eq_false ((step_awaitingKey hstep hne).trans (awaitingKey_eq_false hinv hne))

/-! ## Addresses -/

/-- Every open call's return address is at most 0x1000. -/
def StackBounded (s : State) : Prop := ∀ (k : Nat) (h : k < 12), k < s.sp.val → (s.stack[k]'h).toNat ≤ 0x1000

theorem advance_pc_toNat (hf : s.Fetchable) : s.advance.pc.toNat = s.pc.toNat + 2 := by
  have hpc : s.pc.toNat + 1 < 4096 := hf
  rw [State.advance_pc, BitVec.toNat_add, BitVec.toNat_ofNat]
  omega

theorem skipIf_pc_le {c : Bool} (h : s.pc.toNat ≤ 0x1000) : (s.skipIf c).pc.toNat ≤ 0x10FE := by
  rw [State.skipIf_pc]
  split
  · rw [BitVec.toNat_add, BitVec.toNat_ofNat]
    omega
  · omega

theorem readKey_pc_le {v : Byte} (h : s.pc.toNat ≤ 0x1000) : (s.readKey v).2.pc.toNat ≤ 0x1000 := by
  rcases s.readKey_state v with hs | hs <;> rw [hs] <;> exact h

theorem rewind_pc_le (h2 : 2 ≤ s.pc.toNat) (h : s.pc.toNat ≤ 0x1000) : (s.pc - 2#16).toNat ≤ 0x10FE := by
  rw [BitVec.toNat_sub, BitVec.toNat_ofNat]
  omega

/-- RET that does not fault pops an entry `k`. -/
theorem exists_sp_eq_succ (h : s.sp ≠ 0) : ∃ k, k < 12 ∧ s.sp.val = k + 1 :=
  ⟨s.sp.val - 1, by omega⟩

/-- From an advanced `pc` of at most 0x1000 no meaning leaves `pc` above 0x10FE, where BNNN can reach (R103). -/
theorem exec_pc_le (h2 : 2 ≤ s.pc.toNat) (hpc : s.pc.toNat ≤ 0x1000) (hstack : StackBounded s)
    (h : exec i s = .next t) : t.pc.toNat ≤ 0x10FE := by
  cases exec_cases h with
  | faulted _ ht =>
    subst ht
    exact rewind_pc_le h2 hpc
  | completed hok hc =>
    cases i
    case ret =>
      obtain ⟨k, hk12, hk⟩ := exists_sp_eq_succ hok
      rw [exec_ret_succ hk12 hk] at h
      cases h
      exact (hstack k hk12 (by omega)).trans (by decide)
    case jp nnn =>
      cases h
      rw [State.setPc_pc, immWord_toNat]
      omega
    case call nnn =>
      rw [exec_call_push (sp_lt_of_ne_full hok)] at h
      cases h
      rw [State.setPc_pc, immWord_toNat]
      omega
    case jpV0 nnn =>
      cases h
      rw [State.setPc_pc, immWord_add_byteWord_toNat]
      omega
    case seImm => cases h; exact skipIf_pc_le hpc
    case sneImm => cases h; exact skipIf_pc_le hpc
    case seReg => cases h; exact skipIf_pc_le hpc
    case sneReg => cases h; exact skipIf_pc_le hpc
    case skp x => cases h; exact skipIf_pc_le (readKey_pc_le hpc)
    case sknp x => cases h; exact skipIf_pc_le (readKey_pc_le hpc)
    case ldKey x =>
      cases hkey : s.lowestKey with
      | some k =>
        rw [exec_ldKey_pressed hkey] at h
        cases h
        exact hpc.trans (by decide)
      | none =>
        rw [exec_ldKey_none hkey] at h
        cases h
        exact rewind_pc_le h2 hpc
    all_goals
      have hfix : t.pc = s.pc := hc.parts .pc (by simp [writes])
      rw [hfix]
      exact hpc.trans (by decide)

/-- The return address a CALL pushes is the advanced `pc`; RET uncovers an entry that was open (R83, R85). -/
theorem exec_stackBounded (hpc : s.pc.toNat ≤ 0x1000) (hstack : StackBounded s) (h : exec i s = .next t) :
    StackBounded t := by
  cases exec_cases h with
  | faulted _ ht =>
    subst ht
    exact hstack
  | completed hok hc =>
    cases i
    case ret =>
      obtain ⟨k, hk12, hk⟩ := exists_sp_eq_succ hok
      rw [exec_ret_succ hk12 hk] at h
      cases h
      intro j hj hlive
      have hlive' : j < k := hlive
      exact hstack j hj (by omega)
    case call nnn =>
      rw [exec_call_push (sp_lt_of_ne_full hok)] at h
      cases h
      intro j hj hlive
      have hlive' : j < s.sp.val + 1 := hlive
      show ((s.stack.set s.sp.val s.pc (sp_lt_of_ne_full hok))[j]).toNat ≤ 0x1000
      by_cases hj' : s.sp.val = j
      · subst hj'
        rwa [Vector.getElem_set_self]
      · rw [Vector.getElem_set_ne (sp_lt_of_ne_full hok) hj hj']
        exact hstack j hj (by omega)
    all_goals
      have hstack' : t.stack = s.stack := hc.parts .stack (by simp [writes])
      have hsp : t.sp = s.sp := hc.parts .sp (by simp [writes])
      simp only [StackBounded, hstack', hsp]
      exact hstack

/-! ## A step, and a reset -/

/-- An advanced core at an address inside memory is where a meaning starts. -/
theorem exec_advance_addressesBounded (hinv : s.Inv) (hf : s.Fetchable) (h : exec i s.advance = .next t) :
    t.AddressesBounded := by
  have hin : s.pc.toNat + 1 < 4096 := hf
  have hpc := advance_pc_toNat hf
  obtain ⟨-, hstack⟩ := hinv.addressesBounded
  exact ⟨exec_pc_le (s := s.advance) (by omega) (by omega) hstack h,
    exec_stackBounded (s := s.advance) (by omega) hstack h⟩

theorem inv_step (hinv : s.Inv) (h : step s = .next t) : t.Inv := by
  cases step_cases h with
  | ignored _ ht => exact ht ▸ hinv
  | outside _ _ _ ht => exact ht ▸ inv_takeFault hinv (by simp) (by simp)
  | unrecognized _ hhalt hf hd ht =>
    subst ht
    have hkey : ∀ x, decodeWord s.nextWord ≠ some (.ldKey x) := by simp [hd]
    exact inv_of_running hinv hhalt ⟨rfl, rfl, rfl⟩ hinv.memCanonical
      (waitsAtKeyWord_of_awaitingKey_eq_false (t := s.advance) (awaitingKey_eq_false (s := s) hinv hkey))
      (exec_advance_addressesBounded hinv hf (exec_sys 0 s.advance))
  | decoded i _ hhalt hf hd hexec =>
    rcases exec_advance_cases hexec with ⟨-, rfl⟩ | ⟨-, hc⟩
    · exact inv_takeFault hinv (faultKind_ne_none i) (faultKind_ne_romTooLarge i)
    · exact inv_of_running hinv hhalt (hc.parts .fault notMem_writes_fault) (hc.wf hinv.memCanonical)
        (waitsAtKeyWord_of_step hinv hf hd hexec h) (exec_advance_addressesBounded hinv hf hexec)

/-- A reset gives a state that meets the invariant, whatever the state before and the ROM. -/
theorem inv_initialise (s : State) (rom : List Byte) : (s.initialise rom).Inv where
  memCanonical := wf_initialise
  waitsAtKeyWord := waitsAtKeyWord_of_awaitingKey_eq_false rfl
  addressesBounded := ⟨show (0x200#16).toNat ≤ 0x10FE by decide, fun k _ hk => absurd hk (Nat.not_lt_zero k)⟩
  recordClear := fun _ => ⟨rfl, rfl⟩
  recordFits := by
    refine ⟨fun hkind => ?_, fun _ => ⟨rfl, rfl, rfl⟩⟩
    by_cases hfits : rom.length ≤ 3584
    · simp [initialise_halt_fits hfits] at hkind
    · simp [initialise_halt_rejected (Nat.not_le.mp hfits)] at hkind

/-! ## Every event -/

theorem inv_apply (hinv : s.Inv) (e : Event) : ∃ t, s.apply e = .next t ∧ t.Inv := by
  cases e
  case step =>
    obtain ⟨t, ht⟩ := everyStepAnswersNext s
    exact ⟨t, ht, inv_step hinv ht⟩
  case tick => exact ⟨_, rfl, inv_of_fixedBut hinv ((fixedBut_tick s).mono (by simp))⟩
  case pause => exact ⟨_, rfl, inv_of_fixedBut hinv ((fixedBut_setRunState s _).mono (by simp))⟩
  case resume => exact ⟨_, rfl, inv_of_fixedBut hinv ((fixedBut_setRunState s _).mono (by simp))⟩
  case setKeys k => exact ⟨_, rfl, inv_of_fixedBut hinv ((fixedBut_setKey s k).mono (by simp))⟩
  case reset rom => exact ⟨_, rfl, inv_initialise s rom.bytes⟩
  case quit => exact ⟨s, rfl, hinv⟩

end Sys2Proof.Claims
end

section
/-! THE STATEMENTS about the machine's invariant. -/

namespace Sys2Proof.Claims

open Sys2Proof.Machine

/-- Settles O16: the state at reset is that of a reset with an empty ROM. -/
theorem invariantHoldsAtReset : Obligations.InvariantHoldsAtReset :=
  inv_initialise State.reset []

/-- Settles O17, along the four ways a step goes: a fault is recorded at `pc`, and a core that acts starts from an
advanced `pc` inside memory. -/
theorem stepKeepsInvariant : Obligations.StepKeepsInvariant :=
  fun _ _ => inv_step

/-- Settles O18, by induction on the schedule: every event answers a next state that meets the invariant. -/
theorem everyScheduleKeepsInvariant : Obligations.EveryScheduleKeepsInvariant := by
  intro es
  induction es with
  | nil => exact fun s hinv => ⟨s, rfl, hinv⟩
  | cons e es ih =>
    intro s hinv
    obtain ⟨t, ht, htinv⟩ := inv_apply hinv e
    simp only [runEvents, ht]
    split
    · exact ⟨t, rfl, htinv⟩
    · exact ih t htinv

end Sys2Proof.Claims
end
